-- ==== Sys2Proof/Word.lean ====
section
/-! DEFINITION. The word types of the block (00_scope.md R7, R9, R10): every value is unsigned and of fixed width. -/

namespace Sys2Proof

/-- `u8`. -/
abbrev Byte := BitVec 8

/-- `u32`: opcodes, indices, counts, delay arguments (00_scope.md R7, R9). -/
abbrev U32 := BitVec 32

/-- The 16-bit word of a host command (30_encoding.md R77). -/
abbrev CmdWord := BitVec 16

/-- `u7`: the presence bits of a Capability Table (10_state.md R27). -/
abbrev CapBits := BitVec 7

end Sys2Proof
end

