-- ==== Sys2Proof/Config.lean ====
section
/-! DEFINITION. The model configuration record CFG (00_scope.md R8) and the record formats it is made of: table entries (30_encoding.md R70), script steps (R75), the panel descriptor (20_memory.md R53). The one free constant of the model stands here. -/

namespace Sys2Proof

/-- `LIVENESS_BYTES_MAX` of the reset state's configuration: 00_scope.md R8 leaves it OPEN, a named parameter
with no default. No proof can see its value (log entry 2). -/
opaque Config.livenessBytesMax : Nat

/-- A command-table entry, format E: one shape for every kind of entry (30_encoding.md R70). -/
structure Entry where
  opcode : U32
  count  : Byte
  params : Vector Byte 64
deriving DecidableEq, Repr

/-- A power-script step, format S (30_encoding.md R75). -/
structure ScriptStep where
  kind : U32
  a    : U32
  b    : U32
  c    : U32
deriving DecidableEq, Repr

/-- The three reserved opcode values of one configuration (00_scope.md R8). -/
structure ReservedOps where
  delay  : U32
  udelay : U32
  fin    : U32
deriving DecidableEq, Repr

/-- One liveness entry as the panel model writes it: what it leaves out is `none` or not listed (20_memory.md R54). -/
structure LivenessSpec where
  opcode   : Option U32
  count    : Byte
  expected : List Byte
deriving DecidableEq, Repr

/-- `CFG.DESCRIPTOR`, a PARTIAL record: `none` is a field the panel model does not set (20_memory.md R53, R54). -/
structure DescriptorSpec where
  width         : Option U32
  height        : Option U32
  density       : Option U32
  format        : Option U32
  vsyncActive   : Option U32
  vbp           : Option U32
  vfp           : Option U32
  hsyncActive   : Option U32
  hbp           : Option U32
  hfp           : Option U32
  clock         : Option U32
  lanes         : Option U32
  livenessCount : Option U32
  liveness      : List LivenessSpec
  extra         : List (String × U32)
deriving DecidableEq, Repr

/-- One liveness entry of the completed record: `expected` has LIVENESS_BYTES_MAX bytes (20_memory.md R53). -/
structure LivenessEntry where
  opcode   : U32
  count    : Byte
  expected : List Byte
deriving DecidableEq, Repr

/-- The completed descriptor that DESCRIBE returns: every scalar field has a value and the liveness table has
ESD_MAX entries (20_memory.md R53, R54). -/
structure Descriptor where
  width         : U32
  height        : U32
  density       : U32
  format        : U32
  vsyncActive   : U32
  vbp           : U32
  vfp           : U32
  hsyncActive   : U32
  hbp           : U32
  hfp           : U32
  clock         : U32
  lanes         : U32
  livenessCount : U32
  liveness      : List LivenessEntry
  extra         : List (String × U32)
deriving DecidableEq, Repr

/-- The model configuration record CFG (00_scope.md R8). Its fields are R8's, under R8's names. -/
structure Cfg where
  ops              : ReservedOps
  initTable        : List Entry
  initCount        : U32
  suspTable        : List Entry
  suspCount        : U32
  suspForce        : Bool
  upScript         : List ScriptStep
  downScript       : List ScriptStep
  descriptor       : DescriptorSpec
  checkTransitions : Bool
  esdMax           : Nat
  livenessBytesMax : Nat
deriving DecidableEq, Repr

end Sys2Proof
end

