-- ==== Sys2Proof/Syntax.lean ====
section
/-! DEFINITION. The instructions: one constructor per row of spec/opcode_table.json, in the table's order, carrying the operands the decoder has taken out of the record. -/

namespace Sys2Proof

/-- The 13 rows of the opcode table: four kinds of table entry (format E), four kinds of script step (format S),
five host commands (format H). -/
inductive Instr where
  /-- `WRITE`: opcode, count, and the `count` parameter bytes, `params[0]` first (40_table_interpreter.md R104). -/
  | write (op : U32) (count : Byte) (params : List Byte)
  /-- `DELAY`: count (R105). -/
  | delay (k : Byte)
  /-- `UDELAY`: count (R106). -/
  | udelay (k : Byte)
  /-- `END`: no operand (R107). -/
  | endMark
  /-- `S_RESET`: level (41_power_script.md R131). -/
  | sReset (level : Bool)
  /-- `S_BIAS`: enable, sequence order, voltage (R132). -/
  | sBias (enable : Bool) (order voltage : U32)
  /-- `S_MDELAY`: milliseconds (R133). -/
  | sMdelay (n : U32)
  /-- `S_UDELAY`: microseconds (R134). -/
  | sUdelay (n : U32)
  /-- `CONFIGURE`: the capability presence bits (42_lifecycle.md R153). -/
  | hConfigure (caps : CapBits)
  /-- `DESCRIBE` (R154). -/
  | hDescribe
  /-- `INITIALIZE` (R155). -/
  | hInitialize
  /-- `SUSPEND` (R156). -/
  | hSuspend
  /-- `RESUME` (R157). -/
  | hResume
deriving DecidableEq, Repr

end Sys2Proof
end

