-- ==== Sys2Proof/WellFormed.lean ====
section
/-! DEFINITION. Well-formedness of instructions (30_encoding.md R79) and the names of the checks of a configuration (R80). The configuration checks themselves are in Machine/ConfigCheck.lean. -/

namespace Sys2Proof

/-- The check of 30_encoding.md R80 that a configuration fails. -/
inductive CfgCheck where
  | wf1 | wf2 | wf3 | wf4 | wf5 | wf6
deriving DecidableEq, Repr

/-- What is wrong with an ill-formed instruction. Only a WRITE can be ill-formed: the operand types of the other
constructors admit exactly the values the encodings admit. -/
inductive IllFormed where
  /-- A WRITE of one of the three reserved opcode values, which no entry encodes (30_encoding.md R74). -/
  | reservedOpcode
  /-- A WRITE whose count is above the buffer capacity of 64 bytes (R79, WF1). -/
  | oversizedWrite
  /-- A WRITE that does not carry exactly `count` parameter bytes (R76). -/
  | paramLength
deriving DecidableEq, Repr

/-- The opcode is one of the three reserved values: all 32 bits are compared (30_encoding.md R73). -/
def ReservedOps.holds (ops : ReservedOps) (op : U32) : Bool :=
  op == ops.delay || op == ops.udelay || op == ops.fin

/-- The three reserved values are pairwise distinct (30_encoding.md R80, WF2). -/
def ReservedOps.distinct (ops : ReservedOps) : Bool :=
  ops.delay != ops.udelay && ops.delay != ops.fin && ops.udelay != ops.fin

/-- The first check an instruction fails, or `none` for a well-formed one. -/
def Instr.illFormed (ops : ReservedOps) : Instr → Option IllFormed
  | .write op k ps =>
    if ops.holds op then some .reservedOpcode
    else if 64 < k.toNat then some .oversizedWrite
    else if ps.length ≠ k.toNat then some .paramLength
    else none
  | .delay _ => none
  | .udelay _ => none
  | .endMark => none
  | .sReset _ => none
  | .sBias _ _ _ => none
  | .sMdelay _ => none
  | .sUdelay _ => none
  | .hConfigure _ => none
  | .hDescribe => none
  | .hInitialize => none
  | .hSuspend => none
  | .hResume => none

/-- An instruction is well-formed under the reserved opcode values `ops`. -/
abbrev Instr.wellFormed (ops : ReservedOps) (i : Instr) : Prop := i.illFormed ops = none

end Sys2Proof
end

