-- ==== Sys2Proof/Decode.lean ====
section
/-! DEFINITION. Decoding of the three input formats E, S and H (30_encoding.md R70 to R79) and, after it, the encoder written from the same tables. -/

namespace Sys2Proof

/-! ## Bytes -/

/-- A u32 from its four little-endian bytes (30_encoding.md R72, R75): `b0` holds bits 7..0. -/
def le32 (b0 b1 b2 b3 : Byte) : U32 := b3 ++ b2 ++ b1 ++ b0

/-- The four little-endian bytes of a u32: byte 0 holds bits 7..0, byte 3 bits 31..24 (30_encoding.md R72). -/
def u32Bytes (v : U32) : List Byte :=
  [v.extractLsb' 0 8, v.extractLsb' 8 8, v.extractLsb' 16 8, v.extractLsb' 24 8]

/-- The low `n` bytes of a number, least significant first. -/
def natBytes : Nat → Nat → List Byte
  | 0, _ => []
  | n + 1, w => BitVec.ofNat 8 w :: natBytes n (w / 256)

/-- The parameter field `params[0..63]` from its leading bytes; the remaining bytes are 0 (30_encoding.md R83). -/
def paramsOf (l : List Byte) : Vector Byte 64 :=
  ⟨⟨l.take 64 ++ List.replicate (64 - l.length) 0#8⟩, by simp; omega⟩

/-- The parameter bytes `params[0..count)` of an entry, in index order (20_memory.md R55). -/
def Entry.sent (e : Entry) : List Byte := e.params.toList.take e.count.toNat

/-! ## Binary images of the records -/

/-- The entry a 72-byte image holds: opcode in bytes 0..3, count in byte 4, params in bytes 5..68, bytes 69..71
ignored (30_encoding.md R72). `none` where fewer than 72 bytes are given. -/
def Entry.ofBytes : List Byte → Option Entry
  | b0 :: b1 :: b2 :: b3 :: k :: rest =>
    if 67 ≤ rest.length then some ⟨le32 b0 b1 b2 b3, k, paramsOf (rest.take 64)⟩ else none
  | _ => none

/-- The 72-byte image of an entry; the padding is written as 0 (30_encoding.md R72). -/
def Entry.toBytes (e : Entry) : List Byte :=
  u32Bytes e.opcode ++ e.count :: (e.params.toList ++ [0#8, 0#8, 0#8])

/-- The script step a 16-byte image holds: kind, a, b, c, each little-endian (30_encoding.md R75). -/
def ScriptStep.ofBytes : List Byte → Option ScriptStep
  | k0 :: k1 :: k2 :: k3 :: a0 :: a1 :: a2 :: a3 :: b0 :: b1 :: b2 :: b3 :: c0 :: c1 :: c2 :: c3 :: _ =>
    some ⟨le32 k0 k1 k2 k3, le32 a0 a1 a2 a3, le32 b0 b1 b2 b3, le32 c0 c1 c2 c3⟩
  | _ => none

/-- The 16-byte image of a script step (30_encoding.md R75). -/
def ScriptStep.toBytes (st : ScriptStep) : List Byte :=
  u32Bytes st.kind ++ u32Bytes st.a ++ u32Bytes st.b ++ u32Bytes st.c

/-- A host command word from two bytes, the low byte first. The spec gives the word and no bytes (log entry 13). -/
def cmdOfBytes : List Byte → Option CmdWord
  | b0 :: b1 :: _ => some (b1 ++ b0)
  | _ => none

/-- The two bytes of a host command word, the low byte first (log entry 13). -/
def cmdBytes (h : CmdWord) : List Byte := [h.extractLsb' 0 8, h.extractLsb' 8 8]

/-! ## Decoding -/

/-- The formats the block decodes: table entry, script step, host command (30_encoding.md, head table). -/
inductive Format where
  | e | s | h
deriving DecidableEq, Repr

/-- Why a record decodes to no instruction. -/
inductive DecodeError where
  /-- Fewer bytes than the record has. -/
  | truncated
  /-- A WRITE entry with count above 64: ill-formed, refused by WF1 (30_encoding.md R79). -/
  | oversizedWrite
  /-- A script step of kind 4 or above (R75, WF4). -/
  | reservedKind
  /-- An S_RESET or S_BIAS whose `a` is not 0 or 1 (R79, WF4). -/
  | levelOutOfRange
  /-- A host command code outside 0x01 to 0x05 (R77). -/
  | badCommandCode
deriving DecidableEq, Repr

/-- Decoding of a table entry: total, by `opcode` alone, all 32 bits compared (30_encoding.md R73). -/
def decodeEntry (ops : ReservedOps) (e : Entry) : Instr :=
  if e.opcode = ops.delay then .delay e.count
  else if e.opcode = ops.udelay then .udelay e.count
  else if e.opcode = ops.fin then .endMark
  else .write e.opcode e.count e.sent

/-- Decoding of a script step by its kind; `b` and `c` are ignored where R75 says so (30_encoding.md R75, R79). -/
def decodeStep (st : ScriptStep) : Except DecodeError Instr :=
  if st.kind = 0 then
    if st.a.toNat ≤ 1 then .ok (.sReset (st.a.getLsbD 0)) else .error .levelOutOfRange
  else if st.kind = 1 then
    if st.a.toNat ≤ 1 then .ok (.sBias (st.a.getLsbD 0) st.b st.c) else .error .levelOutOfRange
  else if st.kind = 2 then .ok (.sMdelay st.a)
  else if st.kind = 3 then .ok (.sUdelay st.a)
  else .error .reservedKind

/-- The command code `h[7:0]` (30_encoding.md R77). -/
def cmdCode (h : CmdWord) : Byte := h.extractLsb' 0 8

/-- The capability payload `h[14:8]` (30_encoding.md R77). -/
def cmdCaps (h : CmdWord) : CapBits := h.extractLsb' 8 7

/-- Decoding of a host command; `h[15]`, and `h[14:8]` outside CONFIGURE, are ignored (30_encoding.md R77). -/
def decodeCommand (h : CmdWord) : Except DecodeError Instr :=
  if cmdCode h = 1 then .ok (.hConfigure (cmdCaps h))
  else if cmdCode h = 2 then .ok .hDescribe
  else if cmdCode h = 3 then .ok .hInitialize
  else if cmdCode h = 4 then .ok .hSuspend
  else if cmdCode h = 5 then .ok .hResume
  else .error .badCommandCode

/-- An entry read as bytes: 30_encoding.md R73 after R72, an oversized WRITE rejected by name (R79). -/
def decodeEntryBytes (ops : ReservedOps) (bs : List Byte) : Except DecodeError Instr :=
  match Entry.ofBytes bs with
  | none => .error .truncated
  | some e =>
    match decodeEntry ops e with
    | .write op k ps => if 64 < k.toNat then .error .oversizedWrite else .ok (.write op k ps)
    | i => .ok i

/-- The decoder: total on any bytes of any of the three formats. -/
def decode (ops : ReservedOps) (f : Format) (bs : List Byte) : Except DecodeError Instr :=
  match f with
  | .e => decodeEntryBytes ops bs
  | .s =>
    match ScriptStep.ofBytes bs with
    | none => .error .truncated
    | some st => decodeStep st
  | .h =>
    match cmdOfBytes bs with
    | none => .error .truncated
    | some h => decodeCommand h

/-! ## Encoding -/

/-- The format an instruction is encoded in (spec/opcode_table.json, "format"). -/
def Instr.format : Instr → Format
  | .write _ _ _ => .e
  | .delay _ => .e
  | .udelay _ => .e
  | .endMark => .e
  | .sReset _ => .s
  | .sBias _ _ _ => .s
  | .sMdelay _ => .s
  | .sUdelay _ => .s
  | .hConfigure _ => .h
  | .hDescribe => .h
  | .hInitialize => .h
  | .hSuspend => .h
  | .hResume => .h

/-- One bit as a u32 operand (30_encoding.md R75: level and enable are 0 or 1). -/
def bitU32 (b : Bool) : U32 := if b then 1 else 0

/-- The word of `CONFIGURE(caps)`: caps in bits 14..8, code 0x01 in bits 7..0, bit 15 zero (30_encoding.md R77). -/
def configureWord (caps : CapBits) : CmdWord := 0#1 ++ caps ++ 0x01#8

/-- The record of an instruction as bytes, from the encodings of 30_encoding.md R70 to R77; ignored fields are 0. -/
def encode (ops : ReservedOps) : Instr → List Byte
  | .write op k ps => Entry.toBytes ⟨op, k, paramsOf ps⟩
  | .delay k => Entry.toBytes ⟨ops.delay, k, paramsOf []⟩
  | .udelay k => Entry.toBytes ⟨ops.udelay, k, paramsOf []⟩
  | .endMark => Entry.toBytes ⟨ops.fin, 0, paramsOf []⟩
  | .sReset l => ScriptStep.toBytes ⟨0, bitU32 l, 0, 0⟩
  | .sBias e o v => ScriptStep.toBytes ⟨1, bitU32 e, o, v⟩
  | .sMdelay n => ScriptStep.toBytes ⟨2, n, 0, 0⟩
  | .sUdelay n => ScriptStep.toBytes ⟨3, n, 0, 0⟩
  | .hConfigure c => cmdBytes (configureWord c)
  | .hDescribe => cmdBytes 0x0002
  | .hInitialize => cmdBytes 0x0003
  | .hSuspend => cmdBytes 0x0004
  | .hResume => cmdBytes 0x0005

/-! ## The opcode table's words -/

/-- The default reserved opcode values (00_scope.md R8: 0xFFFC, 0xFFFB, 0xFFFD, marked there as general knowledge;
log entry 1). -/
def ReservedOps.default : ReservedOps := ⟨0x0000FFFC, 0x0000FFFB, 0x0000FFFD⟩

/-- The format a word of the opcode table is read in. The table numbers three formats from bit 0 alike, so `nbits`
and the word decide (log entry 13): a row with no fixed bits is a table entry; at most 16 bits is a host command; a
record of one to four 32-bit words whose first is a script kind 0 to 3 is a script step; anything else is a table entry. -/
def tableFormat (nbits w : Nat) : Format :=
  if nbits = 0 then .e
  else if nbits ≤ 16 then .h
  else if nbits % 32 = 0 ∧ nbits ≤ 128 ∧ w % 2 ^ 32 < 4 then .s
  else .e

/-- The number of bytes of a record (30_encoding.md R82). -/
def Format.size : Format → Nat
  | .e => 72
  | .s => 16
  | .h => 2

/-- The record of the opcode-table word `w` as the block stores it, every bit above `nbits` zero. -/
def tableBytes (nbits w : Nat) : List Byte :=
  natBytes (tableFormat nbits w).size (w % 2 ^ nbits)

/-- The instruction the decoder reads from an opcode-table word, under the default reserved opcodes. -/
def decodeTableWord (nbits w : Nat) : Option Instr :=
  match decode .default (tableFormat nbits w) (tableBytes nbits w) with
  | .ok i => some i
  | .error _ => none

end Sys2Proof
end

