-- ==== Sys2Proof/Machine/State.lean ====
section
/-! DEFINITION. The state of the block (exactly the registers of 10_state.md R21, beside the configuration CFG and the event trace), and beside it the outside world's moves; the reasons a step can stop; the state after reset (10_state.md R38). -/

namespace Sys2Proof.Machine

/-- `LSTATE` (u2): one constructor per value of its encoding (10_state.md R24). -/
inductive LState where
  | uninit | active | suspended
  /-- Value 3: reserved, never written. -/
  | reserved3
deriving DecidableEq, Repr

/-- `PHASE` (u3): one constructor per value of its encoding (10_state.md R25). -/
inductive Phase where
  | idle | pwrUp | pushInit | pushSusp | pwrDown | faulted
  /-- Value 6: reserved, never written. -/
  | reserved6
  /-- Value 7: reserved, never written. -/
  | reserved7
deriving DecidableEq, Repr

/-- `TSEL` (u1): `init` is 0, `susp` is 1 (10_state.md R28). -/
inductive Table where
  | init | susp
deriving DecidableEq, Repr

/-- A primitive request, format P (30_encoding.md R76). -/
inductive Request where
  | setResetPin (level : Bool)
  | setBias (enable : Bool) (order voltage : U32)
  | delayMs (n : U32)
  | delayUs (n : U32)
  | writeCommand (opcode : U32) (count : Byte) (params : List Byte) (force : Bool)
deriving DecidableEq, Repr

/-- An event of the trace (20_memory.md R56). -/
inductive Event where
  /-- SEQ issued a primitive request. -/
  | req (p : Request)
  /-- ENV completed the outstanding request. -/
  | done
  /-- SEQ answered the current host command; DESCRIBE's answer carries the descriptor. -/
  | rsp (status : Byte) (desc : Option Descriptor)
  /-- SEQ accepted a host command. -/
  | cmd (h : CmdWord)
deriving DecidableEq, Repr

/-- `FAULT_INFO`: `{op: u3, phase: u3, index: u32, cap: u3}` (10_state.md R31). -/
structure FaultInfo where
  op    : BitVec 3
  phase : BitVec 3
  index : U32
  cap   : BitVec 3
deriving DecidableEq, Repr

/-- What the outside world does next: the model's own, not the spec's (log entry 5). -/
inductive Input where
  /-- HOST presents this command word; it is held while the block is busy (10_state.md R32). -/
  | command (h : CmdWord)
  /-- The reset input is asserted (70_reset_and_hazards.md R220). -/
  | reset
  /-- HOST presents nothing in this step: the block, or ENV, takes its own step. -/
  | run
  /-- No agent moves in this step: ENV is not done yet, or the block is not scheduled (40_table_interpreter.md R108). -/
  | stall
deriving DecidableEq, Repr

/-- THE STATE OF THE BLOCK: exactly the sixteen registers of 10_state.md R21, beside the event trace (20_memory.md R56)
and CFG (00_scope.md R8), and nothing else. -/
structure Block where
  /-- `LSTATE`, R24. -/
  lstate    : LState
  /-- `PHASE`, R25. -/
  phase     : Phase
  /-- `CUR_OP`, R26. -/
  curOp     : BitVec 3
  /-- `CAP_VALID`, R27. -/
  capValid  : Bool
  /-- `CAPS`, R27. -/
  caps      : CapBits
  /-- `IDX`, R22. -/
  idx       : U32
  /-- `COUNT`, R28. -/
  count     : U32
  /-- `TSEL`, R28. -/
  tsel      : Table
  /-- `FORCE`, R28. -/
  force     : Bool
  /-- `SIDX`, R22. -/
  sidx      : U32
  /-- `PEND`, R29. -/
  pend      : Bool
  /-- `REQ`, R29: read only through `State.outstanding`, since it is not observable while `PEND = 0`. -/
  req       : Request
  /-- `STATUS`, R30. -/
  status    : Byte
  /-- `FAULT`, R31. -/
  fault     : Bool
  /-- `FAULT_CODE`, R31. -/
  faultCode : Byte
  /-- `FAULT_INFO`, R31. -/
  faultInfo : FaultInfo
  /-- The event trace, oldest first (20_memory.md R56). -/
  trace     : List Event
  /-- `CFG`: read-only (00_scope.md R8, 20_memory.md R51). -/
  cfg       : Cfg
deriving DecidableEq, Repr

/-- The machine that `step` runs: the block, and beside it the outside world, HOST, ENV and the reset input, as the
list of what they do next, the next move first. `inputs` is the environment, no part of the block's state (log entry 5). -/
structure State extends Block where
  inputs : List Input
deriving DecidableEq, Repr

/-- Why the machine stops. -/
inductive Fault where
  /-- A register holds a reserved value, so SEQ is stuck (93_implementation_defined.md U10). Raised by SEQ's steps.
  Safe: no rule ever writes such a value. -/
  | reservedRegister
  /-- An instruction's meaning is asked for in a state in which SEQ has no such step: another phase, or a request
  outstanding (42_lifecycle.md R165). Raised by the meanings; `step` calls none of them there. Safe. -/
  | notEnabled
  /-- A push reads an entry outside its table, which never happens under WF3 (20_memory.md R50). Raised by the push
  step, only in states no run reaches. Safe. -/
  | outsideTable
deriving DecidableEq, Repr

/-- Why the model has no meaning for a step. -/
inductive Refusal where
  /-- Raised by `exec` for an instruction that has no meaning yet. No arm raises it in this package. Safe. -/
  | notModelled (mnemonic : String)
  /-- The configuration fails this check, so the model has no block for it: no reset and no step
  (30_encoding.md R81). Raised by `step`. Safe. -/
  | configRefused (check : CfgCheck)
deriving DecidableEq, Repr

/-- A descriptor in which the panel model sets no field (20_memory.md R54). -/
def emptyDescriptor : DescriptorSpec :=
  ⟨none, none, none, none, none, none, none, none, none, none, none, none, none, [], []⟩

/-- The configuration that `State.reset` holds: the defaults of 00_scope.md R8, and nothing set where R8 gives no
default (log entry 1). -/
def defaultCfg : Cfg where
  ops              := .default
  initTable        := []
  initCount        := 0
  suspTable        := []
  suspCount        := 0
  suspForce        := true
  upScript         := []
  downScript       := []
  descriptor       := emptyDescriptor
  checkTransitions := true
  esdMax           := 3
  livenessBytesMax := Config.livenessBytesMax

/-- The machine right after reset (10_state.md R38). `req` is unspecified there (log entry 3). -/
def State.reset : State where
  lstate    := .uninit
  phase     := .idle
  curOp     := 0
  capValid  := false
  caps      := 0
  idx       := 0
  count     := 0
  tsel      := .init
  force     := false
  sidx      := 0
  pend      := false
  req       := .setResetPin false
  status    := 0x00
  fault     := false
  faultCode := 0x00
  faultInfo := ⟨0, 0, 0, 0⟩
  trace     := []
  cfg       := defaultCfg
  inputs    := []

end Sys2Proof.Machine
end

