-- ==== Sys2Proof/Machine/ConfigCheck.lean ====
section
/-! DEFINITION. The well-formedness checks WF1 to WF6 of a configuration (30_encoding.md R80). -/

namespace Sys2Proof.Machine

/-- The largest length a u32 index can count (30_encoding.md R80, WF3 and WF6). -/
abbrev maxLength : Nat := 2 ^ 32 - 1

/-- The buffer capacity `PARAM_CAP` (00_scope.md R7). -/
abbrev paramCap : Nat := 64

/-- An entry that decodes as WRITE has `count <= 64`; any other entry passes (30_encoding.md R80, WF1). -/
def entryFits (ops : ReservedOps) (e : Entry) : Bool :=
  match decodeEntry ops e with
  | .write _ k _ => k.toNat ≤ paramCap
  | _ => true

/-- WF1: every WRITE entry of both tables fits the buffer. -/
def wf1 (c : Cfg) : Bool := c.initTable.all (entryFits c.ops) && c.suspTable.all (entryFits c.ops)

/-- WF2: the reserved opcodes are pairwise distinct. -/
def wf2 (c : Cfg) : Bool :=
  c.ops.delay != c.ops.udelay && c.ops.delay != c.ops.fin && c.ops.udelay != c.ops.fin

/-- WF3: each entry count is at most its table's length, and both lengths are at most 2^32 - 1. -/
def wf3 (c : Cfg) : Bool :=
  decide (c.initCount.toNat ≤ c.initTable.length) && decide (c.suspCount.toNat ≤ c.suspTable.length) &&
    decide (c.initTable.length ≤ maxLength) && decide (c.suspTable.length ≤ maxLength)

/-- One script step passes WF4: kind at most 3, and `a` at most 1 for S_RESET and S_BIAS. -/
def stepFits (st : ScriptStep) : Bool :=
  decide (st.kind.toNat ≤ 3) && (decide (1 < st.kind.toNat) || decide (st.a.toNat ≤ 1))

/-- WF4: every script step is an encoding of a step kind. -/
def wf4 (c : Cfg) : Bool := c.upScript.all stepFits && c.downScript.all stepFits

/-- WF5: the liveness table fits ESD_MAX, and each of its entries LIVENESS_BYTES_MAX. -/
def wf5 (c : Cfg) : Bool :=
  decide ((c.descriptor.livenessCount.getD 0).toNat ≤ c.esdMax) &&
    c.descriptor.liveness.all (fun e => decide (e.count.toNat ≤ c.livenessBytesMax))

/-- WF6: both script lengths are at most 2^32 - 1. -/
def wf6 (c : Cfg) : Bool := decide (c.upScript.length ≤ maxLength) && decide (c.downScript.length ≤ maxLength)

/-- The first check of 30_encoding.md R80 that the configuration fails; `none` for a well-formed one. -/
def cfgCheck (c : Cfg) : Option CfgCheck :=
  if !wf1 c then some .wf1
  else if !wf2 c then some .wf2
  else if !wf3 c then some .wf3
  else if !wf4 c then some .wf4
  else if !wf5 c then some .wf5
  else if !wf6 c then some .wf6
  else none

/-- The defaults of `INIT_COUNT` and `SUSP_COUNT`: the table lengths (00_scope.md R8). -/
def withDefaultCounts (c : Cfg) : Cfg :=
  { c with initCount := BitVec.ofNat 32 c.initTable.length, suspCount := BitVec.ofNat 32 c.suspTable.length }

end Sys2Proof.Machine
end

