-- ==== Sys2Proof/Machine/Descriptor.lean ====
section
/-! DEFINITION. `ZeroFill`: the completed descriptor record (20_memory.md R53, R54; 42_lifecycle.md R154). -/

namespace Sys2Proof.Machine

/-- The first `n` bytes of `l`, with 0 where `l` has none. -/
def zeroPad (n : Nat) (l : List Byte) : List Byte := l.take n ++ List.replicate (n - l.length) 0

/-- A liveness entry with nothing set: every byte 0 (20_memory.md R54). -/
def zeroLiveness (bytesMax : Nat) : LivenessEntry := ⟨0, 0, List.replicate bytesMax 0⟩

/-- One liveness entry completed: every `expected` byte at and beyond `count` reads as 0 (20_memory.md R54). -/
def fillLiveness (bytesMax : Nat) (e : LivenessSpec) : LivenessEntry :=
  ⟨e.opcode.getD 0, e.count, zeroPad bytesMax (e.expected.take e.count.toNat)⟩

/-- The completed liveness table, ESD_MAX entries: the first `n` are the model's, every later one is 0
(20_memory.md R53, R54). -/
def livenessTable (bytesMax : Nat) : Nat → Nat → List LivenessSpec → List LivenessEntry
  | 0, _, _ => []
  | slots + 1, n + 1, e :: es => fillLiveness bytesMax e :: livenessTable bytesMax slots n es
  | slots + 1, n, _ => zeroLiveness bytesMax :: livenessTable bytesMax slots (n - 1) []

/-- `ZeroFill(CFG.DESCRIPTOR)`: every field the panel model does not set reads as 0 (20_memory.md R54). -/
def zeroFill (c : Cfg) : Descriptor where
  width         := c.descriptor.width.getD 0
  height        := c.descriptor.height.getD 0
  density       := c.descriptor.density.getD 0
  format        := c.descriptor.format.getD 0
  vsyncActive   := c.descriptor.vsyncActive.getD 0
  vbp           := c.descriptor.vbp.getD 0
  vfp           := c.descriptor.vfp.getD 0
  hsyncActive   := c.descriptor.hsyncActive.getD 0
  hbp           := c.descriptor.hbp.getD 0
  hfp           := c.descriptor.hfp.getD 0
  clock         := c.descriptor.clock.getD 0
  lanes         := c.descriptor.lanes.getD 0
  livenessCount := c.descriptor.livenessCount.getD 0
  liveness      := livenessTable c.livenessBytesMax c.esdMax (c.descriptor.livenessCount.getD 0).toNat c.descriptor.liveness
  extra         := c.descriptor.extra

/-- A further field of the returned record, by name: 0 where the panel model does not set it (20_memory.md R53, `extra`). -/
def extraField (d : Descriptor) (name : String) : U32 := (d.extra.lookup name).getD 0

end Sys2Proof.Machine
end

