-- ==== Sys2Proof/Machine/Codes.lean ====
section
/-! DEFINITION. The numeric encodings of 10_state.md R24 to R28, 30_encoding.md R76, R77 and 60_exceptions.md R191. -/

namespace Sys2Proof.Machine

/-- The encoding of `LSTATE` (10_state.md R24). -/
def LState.code : LState → BitVec 2
  | .uninit => 0
  | .active => 1
  | .suspended => 2
  | .reserved3 => 3

/-- The encoding of `PHASE` (10_state.md R25). -/
def Phase.code : Phase → BitVec 3
  | .idle => 0
  | .pwrUp => 1
  | .pushInit => 2
  | .pushSusp => 3
  | .pwrDown => 4
  | .faulted => 5
  | .reserved6 => 6
  | .reserved7 => 7

/-- The encoding of `TSEL` (10_state.md R28). -/
def Table.code : Table → BitVec 1
  | .init => 0
  | .susp => 1

/-- `kind(p)`: a request's kind number, which is also the number of the CAPS bit it needs (30_encoding.md R76). -/
def Request.kind : Request → Nat
  | .setResetPin _ => 0
  | .setBias _ _ _ => 1
  | .delayMs _ => 2
  | .delayUs _ => 3
  | .writeCommand _ _ _ _ => 4

/-- `ST_OK` (60_exceptions.md R191). -/
def stOk : Byte := 0x00
/-- `ST_INVALID_TRANSITION` (60_exceptions.md R191). -/
def stInvalidTransition : Byte := 0x01
/-- `ST_NOT_CONFIGURED` (60_exceptions.md R191). -/
def stNotConfigured : Byte := 0x02
/-- `ST_BAD_COMMAND` (60_exceptions.md R191). -/
def stBadCommand : Byte := 0x03
/-- `ST_FAULTED` (60_exceptions.md R191). -/
def stFaulted : Byte := 0x04
/-- `ST_FAULT_MISSING_CAP` (60_exceptions.md R191). -/
def stFaultMissingCap : Byte := 0x10

/-- The status codes that are ever sent; every other value is reserved (60_exceptions.md R191). -/
def statusCodes : List Byte :=
  [stOk, stInvalidTransition, stNotConfigured, stBadCommand, stFaulted, stFaultMissingCap]

/-- Fault code: no fault recorded (60_exceptions.md R191). -/
def fltNone : Byte := 0x00
/-- `FLT_MISSING_CAP` (60_exceptions.md R191). -/
def fltMissingCap : Byte := 0x01

/-- The fault codes that are ever written (60_exceptions.md R191). -/
def faultCodes : List Byte := [fltNone, fltMissingCap]

/-- The three busy commands (42_lifecycle.md, head). -/
inductive BusyCmd where
  | initPanel | suspendPanel | resumePanel
deriving DecidableEq, Repr

/-- The value of `CUR_OP` while a busy command runs: its command code (10_state.md R26). -/
def BusyCmd.code : BusyCmd → BitVec 3
  | .initPanel => 3
  | .suspendPanel => 4
  | .resumePanel => 5

end Sys2Proof.Machine
end

