-- ==== Sys2Proof/Machine/Flags.lean ====
section
/-! DEFINITION. The block has no flags (10_state.md R35). What stands here are the tests its steps branch on: the phase classes, the capability bits, the transition table, the reserved register values. -/

namespace Sys2Proof.Machine

/-- The push phases, in which `IDX` is live (10_state.md R25). -/
def Phase.isPush : Phase → Bool
  | .pushInit | .pushSusp => true
  | _ => false

/-- The script phases, in which `SIDX` is live (10_state.md R25). -/
def Phase.isScript : Phase → Bool
  | .pwrUp | .pwrDown => true
  | _ => false

/-- The busy phases 1 to 4 (10_state.md R25). -/
def Phase.isBusy (p : Phase) : Bool := p.isPush || p.isScript

/-- The output `cmd_ready`: `PHASE = IDLE or PHASE = FAULTED` (10_state.md R32). -/
def State.cmdReady (s : State) : Bool := s.phase == .idle || s.phase == .faulted

/-- SEQ can accept a command: the port is ready and no request is outstanding (42_lifecycle.md R150, R165). -/
def State.canAccept (s : State) : Bool := s.cmdReady && !s.pend

/-- SEQ has a push step (40_table_interpreter.md R102). -/
def State.canPush (s : State) : Bool := s.phase.isPush && !s.pend

/-- SEQ has a script step (41_power_script.md R130). -/
def State.canScript (s : State) : Bool := s.phase.isScript && !s.pend

/-- The outputs `req_valid` and `req` of the request port (10_state.md R33): the outstanding request, if any. -/
def State.outstanding (s : State) : Option Request := if s.pend then some s.req else none

/-- `CAPS[kind(p)] = 1`: the configured table has the callable that `p` needs (40_table_interpreter.md R101). -/
def State.hasCap (s : State) (p : Request) : Bool := s.caps.getLsbD p.kind

/-- The live index: `IDX` in a push phase and `SIDX` in a script phase (40_table_interpreter.md R101). -/
def State.liveIndex (s : State) : U32 := if s.phase.isPush then s.idx else s.sidx

/-- `Legal(c, s)`: the transition table (42_lifecycle.md R158). -/
def legal : BusyCmd → LState → Bool
  | .initPanel, _ => true
  | .suspendPanel, l => l == .active
  | .resumePanel, l => l == .suspended

/-- Some register holds a reserved value, in which SEQ is stuck (93_implementation_defined.md U10). -/
def State.reservedHeld (s : State) : Bool :=
  s.lstate == .reserved3 || s.phase == .reserved6 || s.phase == .reserved7 ||
    !(statusCodes.contains s.status) || !(faultCodes.contains s.faultCode)

end Sys2Proof.Machine
end

