-- ==== Sys2Proof/Machine/Ops.lean ====
section
/-! DEFINITION. The shared operations: Respond, the fault entry, Issue, StartPush, Complete, PushDone, ScriptDone, ENV's completion, reset (00_scope.md R11; 40_table_interpreter.md R100 to R109; 41_power_script.md R137; 42_lifecycle.md R159; 60_exceptions.md R196; 70_reset_and_hazards.md R220). -/

namespace Sys2Proof.Machine

/-- Append one event to the trace (20_memory.md R56). -/
def logEvent (e : Event) (s : State) : State := { s with trace := s.trace ++ [e] }

/-- `Respond(status)` and `Respond(status, desc)`: the `rsp` event, `STATUS`, `CUR_OP <- 0`. It does not set `PHASE`
(00_scope.md R11, 90_conflicts.md C8). -/
def respond (status : Byte) (desc : Option Descriptor) (s : State) : State :=
  { logEvent (.rsp status desc) s with status := status, curOp := 0 }

/-- A rejection: it writes only `STATUS`, `CUR_OP` and the trace, and leaves `phase` (42_lifecycle.md R152). -/
def reject (status : Byte) (phase : Phase) (s : State) : State :=
  { respond status none s with phase := phase }

/-- The record of a fault raised by `Issue(p)`, read before any write (60_exceptions.md R195). -/
def faultRecord (p : Request) (s : State) : FaultInfo :=
  ⟨s.curOp, s.phase.code, s.liveIndex, BitVec.ofNat 3 p.kind⟩

/-- TAKING THE FAULT: `TakeFault(info)` (60_exceptions.md R196). There is no return from it but reset (R197). -/
def takeFault (info : FaultInfo) (s : State) : State :=
  { respond stFaultMissingCap none s with
      fault := true, faultCode := fltMissingCap, faultInfo := info, phase := .faulted }

/-- The request port takes `p`: `REQ <- p`, `PEND <- 1`, the `req` event (40_table_interpreter.md R101). -/
def putRequest (p : Request) (s : State) : State :=
  { logEvent (.req p) s with req := p, pend := true }

/-- `Issue(p)`, then `advance` only if it raised nothing (40_table_interpreter.md R101, R103; 41_power_script.md R130). -/
def issue (p : Request) (advance : State → State) (s : State) : State :=
  if s.hasCap p then advance (putRequest p s) else takeFault (faultRecord p s) s

/-- `IDX <- IDX + 1` (40_table_interpreter.md R103). -/
def advanceIdx (s : State) : State := { s with idx := s.idx + 1 }

/-- `SIDX <- SIDX + 1` (41_power_script.md R130). -/
def advanceSidx (s : State) : State := { s with sidx := s.sidx + 1 }

/-- The phase of a push on a table (40_table_interpreter.md R100). -/
def Table.pushPhase : Table → Phase
  | .init => .pushInit
  | .susp => .pushSusp

/-- `StartPush(t, n, f)` (40_table_interpreter.md R100). -/
def startPush (t : Table) (n : U32) (f : Bool) (s : State) : State :=
  { s with tsel := t, count := n, force := f, idx := 0, phase := t.pushPhase }

/-- Start the script of a phase at its first step: `SIDX <- 0` (40_table_interpreter.md R109, 42_lifecycle.md R155). -/
def startScript (phase : Phase) (s : State) : State := { s with sidx := 0, phase := phase }

/-- `Complete(s)`: the end of a busy command that took no fault (42_lifecycle.md R159). -/
def complete (l : LState) (s : State) : State :=
  { respond stOk none { s with lstate := l } with phase := .idle }

/-- `INIT_FORCE`: the init table is always pushed with force = 1 (00_scope.md R7, 42_lifecycle.md R155). -/
def initForce : Bool := true

/-- `PushDone()` (40_table_interpreter.md R109). -/
def pushDone (s : State) : State :=
  match s.tsel with
  | .init => complete .active s
  | .susp => startScript .pwrDown s

/-- `ScriptDone()` (41_power_script.md R137). -/
def scriptDone (s : State) : State :=
  if s.phase = .pwrUp then startPush .init s.cfg.initCount initForce s else complete .suspended s

/-- ENV's completion step (40_table_interpreter.md R108): `PEND <- 0` and the `done` event; nothing else is written. -/
def envDone (s : State) : State := { logEvent .done s with pend := false }

/-- Reset: every register to its reset value, the trace empty; CFG is kept (70_reset_and_hazards.md R220, R221). The
outside world's later moves are kept (log entry 7). -/
def resetState (s : State) : State := { State.reset with cfg := s.cfg, inputs := s.inputs }

/-- The selected table (10_state.md R28). -/
def Table.entries (c : Cfg) : Table → List Entry
  | .init => c.initTable
  | .susp => c.suspTable

/-- The running script `S` (41_power_script.md R130). -/
def State.script (s : State) : List ScriptStep :=
  if s.phase = .pwrUp then s.cfg.upScript else s.cfg.downScript

/-- `TableRead(t, i)`: entry `i` of table `t`, `none` outside the table (00_scope.md R11, 20_memory.md R50). -/
def tableRead (c : Cfg) (t : Table) (i : Nat) : Option Entry := (t.entries c)[i]?

/-- `ScriptRead(s, i)` on the running script (00_scope.md R11, 20_memory.md R52). -/
def scriptRead (s : State) (i : Nat) : Option ScriptStep := s.script[i]?

/-- A push step's body runs only where SEQ has a push step (40_table_interpreter.md R102). -/
def inPush (s : State) (body : State → State) : Host.Outcome State Fault Refusal :=
  if s.canPush then .next (body s) else .fault .notEnabled

/-- A script step's body runs only where SEQ has a script step (41_power_script.md R130). -/
def inScript (s : State) (body : State → State) : Host.Outcome State Fault Refusal :=
  if s.canScript then .next (body s) else .fault .notEnabled

/-- A command's body runs only where SEQ accepts commands; in FAULTED it is answered `ST_FAULTED` instead
(42_lifecycle.md R150, R152). -/
def inAccept (s : State) (body : State → State) : Host.Outcome State Fault Refusal :=
  if s.canAccept then
    .next (if s.phase = .faulted then reject stFaulted .faulted s else body s)
  else .fault .notEnabled

/-- The checks of a busy command, in order: configured, then legal when `CHECK_TRANSITIONS = 1`; then it starts
(42_lifecycle.md R152, R160). -/
def startBusy (c : BusyCmd) (start : State → State) (s : State) : State :=
  if !s.capValid then reject stNotConfigured .idle s
  else if s.cfg.checkTransitions && !legal c s.lstate then reject stInvalidTransition .idle s
  else start { s with curOp := c.code }

end Sys2Proof.Machine
end

