-- ==== Sys2Proof/Machine/Command.lean ====
section
/-! DEFINITION. The meanings of the five host commands, after the `cmd` event of the accept step (42_lifecycle.md R152 to R157), and the rejection of an unknown code (60_exceptions.md R193). -/

namespace Sys2Proof.Machine

/-- `CONFIGURE(caps)`: store the presence bits, unvalidated (42_lifecycle.md R153). -/
def execConfigure (caps : CapBits) (s : State) : Host.Outcome State Fault Refusal :=
  inAccept s (fun s => { respond stOk none { s with caps := caps, capValid := true } with phase := .idle })

/-- `DESCRIBE`: answer the completed descriptor (42_lifecycle.md R154). -/
def execDescribe (s : State) : Host.Outcome State Fault Refusal :=
  inAccept s (fun s => { respond stOk (some (zeroFill s.cfg)) s with phase := .idle })

/-- `INITIALIZE`: start the power-up script (42_lifecycle.md R155). -/
def execInitialize (s : State) : Host.Outcome State Fault Refusal :=
  inAccept s (startBusy .initPanel (startScript .pwrUp))

/-- `SUSPEND`: start the push of the suspend table (42_lifecycle.md R156). -/
def execSuspend (s : State) : Host.Outcome State Fault Refusal :=
  inAccept s (startBusy .suspendPanel (fun s => startPush .susp s.cfg.suspCount s.cfg.suspForce s))

/-- `RESUME`: as INITIALIZE from the accept step on (42_lifecycle.md R157). -/
def execResume (s : State) : Host.Outcome State Fault Refusal :=
  inAccept s (startBusy .resumePanel (startScript .pwrUp))

/-- A command word with a code outside 0x01 to 0x05 (42_lifecycle.md R152, 60_exceptions.md R193). -/
def badCommand (s : State) : Host.Outcome State Fault Refusal :=
  inAccept s (reject stBadCommand .idle)

end Sys2Proof.Machine
end

