-- ==== Sys2Proof/Machine/Operands.lean ====
section
/-! DEFINITION. Operands: how a meaning reads the fields its instruction carries, and the request each operand form becomes (40_table_interpreter.md R104 to R106, 41_power_script.md R131 to R134). -/

namespace Sys2Proof.Machine

/-- `zext_32` of an entry's count (00_scope.md R10, 40_table_interpreter.md R105). -/
def zext32 (k : Byte) : U32 := k.setWidth 32

/-- The microseconds in a millisecond: `US_PER_MS` (00_scope.md R7). -/
def usPerMs : U32 := 1000

/-- The largest DELAY count that is executed through the microsecond primitive: `US_THRESHOLD` (00_scope.md R7). -/
def usThreshold : Nat := 10

/-- The request of a WRITE entry: opcode, count and bytes unchanged, the push's force flag (40_table_interpreter.md R104). -/
def writeRequest (op : U32) (k : Byte) (ps : List Byte) (force : Bool) : Request :=
  .writeCommand op k ps force

/-- The request of a DELAY entry: `k` milliseconds, through the microsecond primitive when `k <= 10`
(40_table_interpreter.md R105). -/
def delayRequest (k : Byte) : Request :=
  if k.toNat ≤ usThreshold then .delayUs (zext32 k * usPerMs) else .delayMs (zext32 k)

/-- The request of a UDELAY entry: no threshold, not multiplied (40_table_interpreter.md R106). -/
def udelayRequest (k : Byte) : Request := .delayUs (zext32 k)

/-- The request of an S_RESET step (41_power_script.md R131). -/
def resetRequest (level : Bool) : Request := .setResetPin level

/-- The request of an S_BIAS step: order and voltage passed through (41_power_script.md R132). -/
def biasRequest (enable : Bool) (order voltage : U32) : Request := .setBias enable order voltage

/-- The request of an S_MDELAY step: no threshold in scripts (41_power_script.md R133). -/
def mdelayRequest (n : U32) : Request := .delayMs n

/-- The request of an S_UDELAY step (41_power_script.md R134). -/
def sudelayRequest (n : U32) : Request := .delayUs n

end Sys2Proof.Machine
end

