-- ==== Sys2Proof/Machine/Entry.lean ====
section
/-! DEFINITION. The meanings of the four kinds of table entry (40_table_interpreter.md R104 to R107). -/

namespace Sys2Proof.Machine

/-- `WRITE` (40_table_interpreter.md R104). -/
def execWrite (op : U32) (k : Byte) (ps : List Byte) (s : State) : Host.Outcome State Fault Refusal :=
  inPush s (issue (writeRequest op k ps s.force) advanceIdx)

/-- `DELAY` (40_table_interpreter.md R105). -/
def execDelay (k : Byte) (s : State) : Host.Outcome State Fault Refusal :=
  inPush s (issue (delayRequest k) advanceIdx)

/-- `UDELAY` (40_table_interpreter.md R106). -/
def execUdelay (k : Byte) (s : State) : Host.Outcome State Fault Refusal :=
  inPush s (issue (udelayRequest k) advanceIdx)

/-- `END`: only the advance, no request and no event (40_table_interpreter.md R107). -/
def execEnd (s : State) : Host.Outcome State Fault Refusal :=
  inPush s advanceIdx

end Sys2Proof.Machine
end

