-- ==== Sys2Proof/Machine/Script.lean ====
section
/-! DEFINITION. The meanings of the four kinds of power-script step (41_power_script.md R131 to R134). -/

namespace Sys2Proof.Machine

/-- `S_RESET` (41_power_script.md R131). -/
def execSReset (level : Bool) (s : State) : Host.Outcome State Fault Refusal :=
  inScript s (issue (resetRequest level) advanceSidx)

/-- `S_BIAS` (41_power_script.md R132). -/
def execSBias (enable : Bool) (order voltage : U32) (s : State) : Host.Outcome State Fault Refusal :=
  inScript s (issue (biasRequest enable order voltage) advanceSidx)

/-- `S_MDELAY` (41_power_script.md R133). -/
def execSMdelay (n : U32) (s : State) : Host.Outcome State Fault Refusal :=
  inScript s (issue (mdelayRequest n) advanceSidx)

/-- `S_UDELAY` (41_power_script.md R134). -/
def execSUdelay (n : U32) (s : State) : Host.Outcome State Fault Refusal :=
  inScript s (issue (sudelayRequest n) advanceSidx)

end Sys2Proof.Machine
end

