-- ==== Sys2Proof/Machine/Dispatch.lean ====
section
/-! DEFINITION. One arm per constructor of Instr. -/

namespace Sys2Proof.Machine

def exec (i : Instr) (s : State) : Host.Outcome State Fault Refusal :=
  match i with
  | .write op count params => Sys2Proof.Machine.execWrite op count params s
  | .delay k => Sys2Proof.Machine.execDelay k s
  | .udelay k => Sys2Proof.Machine.execUdelay k s
  | .endMark => Sys2Proof.Machine.execEnd s
  | .sReset level => Sys2Proof.Machine.execSReset level s
  | .sBias enable order voltage => Sys2Proof.Machine.execSBias enable order voltage s
  | .sMdelay n => Sys2Proof.Machine.execSMdelay n s
  | .sUdelay n => Sys2Proof.Machine.execSUdelay n s
  | .hConfigure caps => Sys2Proof.Machine.execConfigure caps s
  | .hDescribe => Sys2Proof.Machine.execDescribe s
  | .hInitialize => Sys2Proof.Machine.execInitialize s
  | .hSuspend => Sys2Proof.Machine.execSuspend s
  | .hResume => Sys2Proof.Machine.execResume s

end Sys2Proof.Machine
end

