-- ==== Sys2Proof/Machine/Sequencer.lean ====
section
/-! DEFINITION. The steps of the agents: SEQ's push, script and accept steps, ENV's completion, HOST's and the reset input's moves (40_table_interpreter.md R102, 41_power_script.md R130, 42_lifecycle.md R150, R165). -/

namespace Sys2Proof.Machine

/-- The push step: `PushDone` when `IDX >= COUNT`, else the entry at `IDX` is decoded and dispatched
(40_table_interpreter.md R102). -/
def pushStep (s : State) : Host.Outcome State Fault Refusal :=
  if s.count.toNat ≤ s.idx.toNat then .next (pushDone s)
  else
    match tableRead s.cfg s.tsel s.idx.toNat with
    | none => .fault .outsideTable
    | some e => exec (decodeEntry s.cfg.ops e) s

/-- The script step: `ScriptDone` at the end of the script, else the step at `SIDX` is decoded and dispatched
(41_power_script.md R130). A step that does not decode fails WF4, so the configuration is refused (30_encoding.md R81). -/
def scriptStep (s : State) : Host.Outcome State Fault Refusal :=
  match scriptRead s s.sidx.toNat with
  | none => .next (scriptDone s)
  | some st =>
    match decodeStep st with
    | .error _ => .refused (.configRefused .wf4)
    | .ok i => exec i s

/-- The accept step of command word `h`: the `cmd` event, then the checks and the command. A command that is answered in
the step appends its `rsp` event after it (42_lifecycle.md R150 to R152), which is one event more than 20_memory.md R56
allows: the spec contradicts itself there (log entry 8). -/
def acceptStep (h : CmdWord) (s : State) : Host.Outcome State Fault Refusal :=
  match decodeCommand h with
  | .error _ => badCommand (logEvent (.cmd h) s)
  | .ok i => exec i (logEvent (.cmd h) s)

/-- SEQ does `act`, unless a register holds a reserved value, in which SEQ is stuck (93_implementation_defined.md U10). -/
def seqDoes (s : State) (act : Host.Outcome State Fault Refusal) : Host.Outcome State Fault Refusal :=
  if s.reservedHeld then .fault .reservedRegister else act

/-- The step that is enabled without HOST: ENV's when a request is outstanding, else SEQ's push or script step; with no
command in progress the block waits, unchanged (42_lifecycle.md R165; log entry 6). -/
def ownStep (s : State) : Host.Outcome State Fault Refusal :=
  if s.pend then .next (envDone s)
  else
    seqDoes s
      (match s.phase with
      | .pwrUp | .pwrDown => scriptStep s
      | .pushInit | .pushSusp => pushStep s
      | .idle | .faulted => .next s
      | .reserved6 | .reserved7 => .fault .reservedRegister)

/-- One step, by the outside world's next move (log entry 5). A command is taken only where SEQ accepts it; until then
HOST is held and the block goes on (10_state.md R32). -/
def takeMove (s : State) : Host.Outcome State Fault Refusal :=
  match s.inputs with
  | [] => ownStep s
  | .run :: rest => ownStep { s with inputs := rest }
  | .stall :: rest => .next { s with inputs := rest }
  | .reset :: rest => .next (resetState { s with inputs := rest })
  | .command h :: rest =>
    if s.canAccept then seqDoes s (acceptStep h { s with inputs := rest }) else ownStep s

/-- `step`, behind the check of the configuration: one that fails a check has no reset and no step (30_encoding.md R81). -/
def checkedStep (s : State) : Host.Outcome State Fault Refusal :=
  match cfgCheck s.cfg with
  | some c => .refused (.configRefused c)
  | none => takeMove s

/-! ## Placing one instruction where the next step fetches it (log entry 14) -/

/-- Entry `e` as the whole init table of a push about to read it. -/
def placeEntry (e : Entry) (s : State) : State :=
  { s with
      cfg := { s.cfg with initTable := [e], initCount := 1 }
      phase := .pushInit, tsel := .init, count := 1, idx := 0, pend := false, inputs := .run :: s.inputs }

/-- Script step `st` as the whole power-up script, about to be read. -/
def placeStep (st : ScriptStep) (s : State) : State :=
  { s with
      cfg := { s.cfg with upScript := [st] }
      phase := .pwrUp, sidx := 0, pend := false, inputs := .run :: s.inputs }

/-- Command word `h` presented by HOST to a block that accepts it. -/
def placeCommand (h : CmdWord) (s : State) : State :=
  { s with
      phase := if s.cmdReady then s.phase else .idle
      pend := false, inputs := .command h :: s.inputs }

/-- The record that the opcode-table word stands for, placed where the next step fetches its instruction. -/
def placeTableWord (nbits w : Nat) (s : State) : State :=
  match tableFormat nbits w with
  | .e => match Entry.ofBytes (tableBytes nbits w) with
    | some e => placeEntry e s
    | none => s
  | .s => match ScriptStep.ofBytes (tableBytes nbits w) with
    | some st => placeStep st s
    | none => s
  | .h => match cmdOfBytes (tableBytes nbits w) with
    | some h => placeCommand h s
    | none => s

end Sys2Proof.Machine
end

