-- ==== Sys2Proof/Machine/Step.lean ====
section
/-! DEFINITION. One step of the machine, and the placing of an opcode-table word for the next step. -/

namespace Sys2Proof.Machine

/-- One step of the machine: the transition of the one agent whose turn it is (00_scope.md R6, 42_lifecycle.md R165). -/
def step (s : State) : Host.Outcome State Fault Refusal := checkedStep s

/-- `s` with the instruction of the opcode-table word `w` stored where `step` fetches its next instruction. -/
def State.withFetchWord (s : State) (nbits w : Nat) : State := placeTableWord nbits w s

end Sys2Proof.Machine
end

