-- ==== Sys2Proof/Machine/Image.lean ====
section
/-! DEFINITION. The optional binary image of tables and scripts and the loader's accesses to it (30_encoding.md R72, R75; 00_scope.md R11). SEQ's steps never use them. -/

namespace Sys2Proof.Machine

/-- The number the low-order-first bytes stand for (20_memory.md R55). -/
def leValue : List Byte → Nat
  | [] => 0
  | b :: bs => b.toNat + 256 * leValue bs

/-- `MemRead(addr, n)`: `n` bytes at `addr` of the image as a little-endian number; `none` outside the image. -/
def memRead (img : List Byte) (addr n : Nat) : Option Nat :=
  if addr + n ≤ img.length then some (leValue ((img.drop addr).take n)) else none

/-- `MemWrite(addr, n, v)`: the image with the low `n` bytes of `v` at `addr`, little-endian; `none` outside the image. -/
def memWrite (img : List Byte) (addr n v : Nat) : Option (List Byte) :=
  if addr + n ≤ img.length then some (img.take addr ++ natBytes n v ++ img.drop (addr + n)) else none

/-- The image of a table: its entries' 72-byte images, entry `i` at byte offset `72 * i` (30_encoding.md R72). -/
def tableImage (t : List Entry) : List Byte := t.flatMap Entry.toBytes

/-- The image of a script: its steps' 16-byte images (30_encoding.md R75). -/
def scriptImage (t : List ScriptStep) : List Byte := t.flatMap ScriptStep.toBytes

/-- Read a table of `n` entries from the head of an image; `none` where the image is too short. -/
def loadTable : Nat → List Byte → Option (List Entry)
  | 0, _ => some []
  | n + 1, img =>
    match Entry.ofBytes img, loadTable n (img.drop 72) with
    | some e, some t => some (e :: t)
    | _, _ => none

/-- Read a script of `n` steps from the head of an image; `none` where the image is too short. -/
def loadScript : Nat → List Byte → Option (List ScriptStep)
  | 0, _ => some []
  | n + 1, img =>
    match ScriptStep.ofBytes img, loadScript n (img.drop 16) with
    | some st, some t => some (st :: t)
    | _, _ => none

end Sys2Proof.Machine
end

