-- ==== Sys2Proof/Machine/System.lean ====
section
/-! DEFINITION. Several panels: one independent block per panel, sharing nothing (20_memory.md R66, 60_exceptions.md R203). -/

namespace Sys2Proof.Machine

/-- The answer of a step of block `n` of a system: the system with that block's next state, or why it stopped;
`none` where there is no block `n`. -/
def systemStep (sys : List State) (n : Nat) : Option (Host.Outcome (List State) Fault Refusal) :=
  match sys[n]? with
  | none => none
  | some s =>
    match step s with
    | .next t => some (.next (sys.set n t))
    | .fault f => some (.fault f)
    | .refused r => some (.refused r)

end Sys2Proof.Machine
end

