-- ==== Sys2Proof/Machine/TableNotation.lean ====
section
/-! DEFINITION. The table notation of 30_encoding.md R83, as abstract terms: what a written entry, script step or command stands for. -/

namespace Sys2Proof.Machine

/-- The opcode position of a written entry: a number or a name (30_encoding.md R83). -/
inductive OpText where
  | number (v : U32)
  | name (n : String)
deriving DecidableEq, Repr

/-- A written entry `{opcode, count, {b0, b1, ...}}` (30_encoding.md R83). -/
structure EntryText where
  op    : OpText
  count : Byte
  bytes : List Byte
deriving DecidableEq, Repr

/-- The opcode a name stands for; the source's own names are accepted too (30_encoding.md R83). -/
def opOfName (ops : ReservedOps) (n : String) : Option U32 :=
  if n = "DELAY" then some ops.delay
  else if n = "UDELAY" ∨ n = "MICROSECOND_DELAY" then some ops.udelay
  else if n = "END" ∨ n = "END_OF_TABLE" then some ops.fin
  else none

/-- The opcode of a written entry. -/
def OpText.value (ops : ReservedOps) : OpText → Option U32
  | .number v => some v
  | .name n => opOfName ops n

/-- The entry a written entry stands for: at most 64 bytes, for a WRITE at most `count`, the remaining bytes 0;
`none` where the notation does not allow it (30_encoding.md R83). -/
def EntryText.entry (ops : ReservedOps) (t : EntryText) : Option Entry :=
  match t.op.value ops with
  | none => none
  | some op =>
    if 64 < t.bytes.length then none
    else if ops.holds op = false ∧ t.count.toNat < t.bytes.length then none
    else some ⟨op, t.count, paramsOf t.bytes⟩

/-- The table a bracketed list of written entries stands for (30_encoding.md R83). -/
def tableOf (ops : ReservedOps) : List EntryText → Option (List Entry)
  | [] => some []
  | t :: ts =>
    match t.entry ops, tableOf ops ts with
    | some e, some es => some (e :: es)
    | _, _ => none

/-- A written script step (30_encoding.md R83). -/
inductive StepText where
  | reset (level : U32)
  | bias (enable order voltage : U32)
  | mdelay (n : U32)
  | udelay (n : U32)
deriving DecidableEq, Repr

/-- The record of a written script step (30_encoding.md R75, R83). -/
def StepText.record : StepText → ScriptStep
  | .reset l => ⟨0, l, 0, 0⟩
  | .bias e o v => ⟨1, e, o, v⟩
  | .mdelay n => ⟨2, n, 0, 0⟩
  | .udelay n => ⟨3, n, 0, 0⟩

/-- The word of a written host command, `CONFIGURE(caps)` with its 7-bit mask; `none` for an instruction that is no
host command (30_encoding.md R77, R83). -/
def commandWord : Instr → Option CmdWord
  | .write _ _ _ => none
  | .delay _ => none
  | .udelay _ => none
  | .endMark => none
  | .sReset _ => none
  | .sBias _ _ _ => none
  | .sMdelay _ => none
  | .sUdelay _ => none
  | .hConfigure c => some (configureWord c)
  | .hDescribe => some 0x0002
  | .hInitialize => some 0x0003
  | .hSuspend => some 0x0004
  | .hResume => some 0x0005

end Sys2Proof.Machine
end

