-- ==== Sys2Proof/Safety.lean ====
section
/-! DEFINITION. What a state that a run can reach looks like, what a legal event trace is, what counts as a good end, and what a table or a script asks of ENV, in the terms the statements use. -/

namespace Sys2Proof.Machine

/-! ## The event trace -/

/-- Where a trace stands between HOST, SEQ and ENV. -/
inductive Exchange where
  /-- No command is being executed. -/
  | ready
  /-- A command has been accepted and not answered; no request is outstanding. -/
  | busy
  /-- As `busy`, with one request outstanding. -/
  | waiting
deriving DecidableEq, Repr

/-- The exchange after one more event; `none` where the event may not stand there: a command only when none is being
executed, a response and a request only within a command, `done` only for an outstanding request, and nothing else until
it is done (20_memory.md R62, 42_lifecycle.md R150, R151). -/
def Exchange.next : Exchange → Event → Option Exchange
  | .ready, .cmd _ => some .busy
  | .busy, .req _ => some .waiting
  | .waiting, .done => some .busy
  | .busy, .rsp _ _ => some .ready
  | _, _ => none

/-- The exchange a trace ends in, from the empty trace. -/
def exchangeOf (tr : List Event) : Option Exchange :=
  tr.foldl (fun x e => x.bind (fun y => y.next e)) (some .ready)

/-- The exchange a state's registers say: the block is busy or not, a request is outstanding or not (10_state.md R32, R33). -/
def State.exchange (s : State) : Exchange :=
  if s.phase.isBusy then (if s.pend then .waiting else .busy) else .ready

/-- The request of an event, if it is one. -/
def Event.request : Event → Option Request
  | .req p => some p
  | .done => none
  | .rsp _ _ => none
  | .cmd _ => none

/-- The status of a response event. -/
def Event.responseStatus : Event → Option Byte
  | .req _ => none
  | .done => none
  | .rsp st _ => some st
  | .cmd _ => none

/-- The `req` events of a trace, in order: what a recording stub of the Capability Table sees (20_memory.md R56). -/
def requestsOf (tr : List Event) : List Request := tr.filterMap Event.request

/-- The statuses of the responses of a trace, in order. -/
def statusesOf (tr : List Event) : List Byte := tr.filterMap Event.responseStatus

/-! ## What tables and scripts ask for -/

/-- The request an instruction makes when it is dispatched with force flag `f`, if it makes one
(30_encoding.md R84, 41_power_script.md R131 to R134). -/
def requestOf (f : Bool) : Instr → Option Request
  | .write op k ps => some (.writeCommand op k ps f)
  | .delay k => some (if k.toNat ≤ 10 then .delayUs (BitVec.ofNat 32 (k.toNat * 1000)) else .delayMs (k.setWidth 32))
  | .udelay k => some (.delayUs (k.setWidth 32))
  | .endMark => none
  | .sReset level => some (.setResetPin level)
  | .sBias enable order voltage => some (.setBias enable order voltage)
  | .sMdelay n => some (.delayMs n)
  | .sUdelay n => some (.delayUs n)
  | .hConfigure _ => none
  | .hDescribe => none
  | .hInitialize => none
  | .hSuspend => none
  | .hResume => none

/-- The requests of table entries in index order (20_memory.md R61). -/
def tableRequests (ops : ReservedOps) (f : Bool) (es : List Entry) : List Request :=
  es.filterMap (fun e => requestOf f (decodeEntry ops e))

/-- The request of a script step, if it decodes. -/
def stepRequest (st : ScriptStep) : Option Request :=
  match decodeStep st with
  | .ok i => requestOf false i
  | .error _ => none

/-- The requests of script steps in index order (20_memory.md R61). -/
def scriptRequests (sts : List ScriptStep) : List Request := sts.filterMap stepRequest

/-- The trace of requests issued one at a time, each completed before the next (20_memory.md R62). -/
def completedTrace (ps : List Request) : List Event := ps.flatMap (fun p => [.req p, .done])

/-- The requests of `initialize` and `resume`: the power-up script, then the first `INIT_COUNT` entries of the init
table with force = 1 (20_memory.md R61, 42_lifecycle.md R155). -/
def powerUpRequests (c : Cfg) : List Request :=
  scriptRequests c.upScript ++ tableRequests c.ops true (c.initTable.take c.initCount.toNat)

/-- The requests of `suspend`: the first `SUSP_COUNT` entries of the suspend table, then the power-down script
(20_memory.md R61, 42_lifecycle.md R156). -/
def powerDownRequests (c : Cfg) : List Request :=
  tableRequests c.ops c.suspForce (c.suspTable.take c.suspCount.toNat) ++ scriptRequests c.downScript

/-- The capability record has every capability these requests need. -/
def State.hasCaps (s : State) (ps : List Request) : Bool := ps.all s.hasCap

/-! ## Good states -/

/-- A request carries exactly `count` parameter bytes, at most 64 (10_state.md R36, 30_encoding.md R76). -/
def Request.sized : Request → Prop
  | .writeCommand _ k ps _ => ps.length = k.toNat ∧ k.toNat ≤ 64
  | .setResetPin _ => True
  | .setBias _ _ _ => True
  | .delayMs _ => True
  | .delayUs _ => True

/-- What `CUR_OP` may hold in a phase (10_state.md R26). -/
def curOpFits : Phase → BitVec 3 → Prop
  | .pwrUp, o => o = 3 ∨ o = 5
  | .pushInit, o => o = 3 ∨ o = 5
  | .pushSusp, o => o = 4
  | .pwrDown, o => o = 4
  | .idle, o => o = 0
  | .faulted, o => o = 0
  | .reserved6, _ => False
  | .reserved7, _ => False

/-- The arguments of the running push are the controller's, and its index is within them (10_state.md R23, R28). -/
def pushFits (s : State) : Prop :=
  match s.phase with
  | .pushInit => s.tsel = .init ∧ s.count = s.cfg.initCount ∧ s.force = true ∧ s.idx.toNat ≤ s.count.toNat
  | .pushSusp => s.tsel = .susp ∧ s.count = s.cfg.suspCount ∧ s.force = s.cfg.suspForce ∧ s.idx.toNat ≤ s.count.toNat
  | .pwrUp => s.sidx.toNat ≤ s.cfg.upScript.length
  | .pwrDown => s.sidx.toNat ≤ s.cfg.downScript.length
  | .idle => True
  | .faulted => True
  | .reserved6 => True
  | .reserved7 => True

/-- The invariant of a state that a run can reach. -/
structure State.Inv (s : State) : Prop where
  /-- The configuration passes every check (30_encoding.md R81). -/
  cfgOk : cfgCheck s.cfg = none
  /-- No register holds a reserved value (93_implementation_defined.md U10). -/
  legalRegisters : s.reservedHeld = false
  /-- A request is outstanding only in a busy phase (42_lifecycle.md R165). -/
  pendBusy : s.pend = true → s.phase.isBusy = true
  /-- A busy block has been configured (60_exceptions.md R193). -/
  busyConfigured : s.phase.isBusy = true → s.capValid = true
  /-- `CUR_OP` fits the phase (10_state.md R26). -/
  curOpOk : curOpFits s.phase s.curOp
  /-- The push arguments and the indices fit the phase (10_state.md R23, R28). -/
  pushOk : pushFits s
  /-- The outstanding request's capability is present (40_table_interpreter.md R101). -/
  reqAllowed : s.pend = true → s.hasCap s.req = true
  /-- The outstanding request carries exactly its count of bytes (10_state.md R36). -/
  reqSized : s.pend = true → s.req.sized
  /-- `FAULT = 1` exactly in `FAULTED` (60_exceptions.md R197). -/
  faultPhase : s.fault = true ↔ s.phase = .faulted
  /-- `FAULT_CODE` says whether a fault is recorded (60_exceptions.md R191, R196). -/
  faultCodeOk : (s.fault = true → s.faultCode = fltMissingCap) ∧ (s.fault = false → s.faultCode = fltNone)
  /-- With no fault recorded, `FAULT_INFO` is at its reset value: only the fault entry writes it (10_state.md R31). -/
  faultInfoClear : s.fault = false → s.faultInfo = ⟨0, 0, 0, 0⟩
  /-- A recorded fault names a capability that is missing (60_exceptions.md R195, R197). -/
  faultCapMissing : s.fault = true → s.caps.getLsbD s.faultInfo.cap.toNat = false
  /-- The trace is a legal exchange that ends where the registers say (20_memory.md R62, 42_lifecycle.md R151). -/
  traceOk : exchangeOf s.trace = some s.exchange

/-- The model has a block, and SEQ is not stuck: the configuration passes every check and no register holds a reserved
value (30_encoding.md R81, 93_implementation_defined.md U10). -/
def State.live (s : State) : Prop := cfgCheck s.cfg = none ∧ s.reservedHeld = false

/-- The outside world does not act before the block is ready: there is no move, or HOST waits with a command
(10_state.md R32). -/
def onlyHost : List Input → Prop
  | [] => True
  | .command _ :: _ => True
  | .reset :: _ => False
  | .run :: _ => False
  | .stall :: _ => False

/-- A good end of a run: idle, no request outstanding, no fault, nothing more from HOST (42_lifecycle.md R165,
60_exceptions.md R197). -/
def State.goodEnd (s : State) : Prop :=
  s.phase = .idle ∧ s.pend = false ∧ s.fault = false ∧ s.inputs = []

end Sys2Proof.Machine
end

