-- ==== Sys2Proof/Certificates/Slice0/Obligations.lean ====
section
/-! DEFINITION. The statements for the provers. Each docstring names the rule of spec/ that it formalises. -/

open Sys2Proof Sys2Proof.Machine

/-! ## Reset -/

/-- 10_state.md R38: the value of every register after reset. `REQ` is unspecified there and `CFG` is not reset. -/
def Obligations.ResetHoldsTheSpecifiedValues : Prop :=
  State.reset.lstate = .uninit ∧ State.reset.phase = .idle ∧ State.reset.curOp = 0 ∧
  State.reset.capValid = false ∧ State.reset.caps = 0 ∧ State.reset.idx = 0 ∧ State.reset.count = 0 ∧
  State.reset.tsel = .init ∧ State.reset.force = false ∧ State.reset.sidx = 0 ∧ State.reset.pend = false ∧
  State.reset.status = 0x00 ∧ State.reset.fault = false ∧ State.reset.faultCode = 0x00 ∧
  State.reset.faultInfo = ⟨0, 0, 0, 0⟩ ∧ State.reset.trace = [] ∧ ∀ s : State, (resetState s).cfg = s.cfg

/-- 70_reset_and_hazards.md R220: reset puts every register at its reset value whatever the phase, keeps CFG, and is
the only way to clear `FAULT` or to leave `FAULTED`. -/
def Obligations.ResetActsInEveryStateAndAloneClearsTheFault : Prop :=
  (∀ s rest, cfgCheck s.cfg = none → s.inputs = .reset :: rest →
    ∃ t, step s = .next t ∧ t.lstate = .uninit ∧ t.phase = .idle ∧ t.curOp = 0 ∧ t.capValid = false ∧ t.caps = 0 ∧
      t.idx = 0 ∧ t.count = 0 ∧ t.tsel = .init ∧ t.force = false ∧ t.sidx = 0 ∧ t.pend = false ∧ t.status = 0x00 ∧
      t.fault = false ∧ t.faultCode = 0x00 ∧ t.faultInfo = ⟨0, 0, 0, 0⟩ ∧ t.trace = [] ∧ t.cfg = s.cfg) ∧
  (∀ s t, step s = .next t → s.inputs.head? ≠ some .reset →
    (s.fault = true → t.fault = true) ∧ (s.phase = .faulted → t.phase = .faulted))

/-- The reset state meets the invariant. It rests on the configuration the model names for it (log entry 1). -/
def Obligations.InvariantHoldsAtReset : Prop := State.reset.Inv

/-! ## Encodings -/

/-- 30_encoding.md R70 to R77: decoding the encoding of a well-formed instruction gives it back, for every instruction,
every operand and every choice of three distinct reserved opcodes. -/
def Obligations.DecodeOfEncodeIsTheInstruction : Prop :=
  ∀ (ops : ReservedOps) (i : Instr), ops.distinct = true → i.wellFormed ops →
    decode ops i.format (encode ops i) = .ok i

/-- Records written out in 95_test_vectors.md (X1, X2, the image tables of Part 3, the host-command encodings) decode
to the instructions they stand for. -/
def Obligations.WrittenOutRecordsDecode : Prop :=
  decode .default .e ([0xFC, 0xFF, 0x00, 0x00, 0x78, 0x00, 0x00, 0x00] ++ List.replicate 64 0) = .ok (.delay 120) ∧
  decode .default .e ([0xB9, 0x00, 0x00, 0x00, 0x03, 0xF1, 0x12, 0x83] ++ List.replicate 64 0) =
    .ok (.write 0xB9 3 [0xF1, 0x12, 0x83]) ∧
  decode .default .e ([0xFD, 0xFF, 0x00, 0x00, 0x00, 0x00, 0x00, 0x00] ++ List.replicate 64 0) = .ok .endMark ∧
  decode .default .s [1, 0, 0, 0, 1, 0, 0, 0, 0, 0, 0, 0, 0x7C, 0x15, 0, 0] = .ok (.sBias true 0 5500) ∧
  decodeCommand 0x1F01 = .ok (.hConfigure 0x1F) ∧ decodeCommand 0x0003 = .ok .hInitialize

/-- 30_encoding.md R73, R74: an entry's kind is chosen by its whole opcode alone. -/
def Obligations.EntryKindIsChosenByTheOpcode : Prop :=
  ∀ (ops : ReservedOps) (e : Entry), ops.distinct = true →
    (e.opcode = ops.delay → decodeEntry ops e = .delay e.count) ∧
    (e.opcode = ops.udelay → decodeEntry ops e = .udelay e.count) ∧
    (e.opcode = ops.fin → decodeEntry ops e = .endMark) ∧
    (e.opcode ≠ ops.delay → e.opcode ≠ ops.udelay → e.opcode ≠ ops.fin →
      decodeEntry ops e = .write e.opcode e.count (e.params.toList.take e.count.toNat))

/-- 30_encoding.md R79: bytes of an entry that its kind ignores decide nothing. -/
def Obligations.IgnoredEntryBytesDecideNothing : Prop :=
  ∀ (ops : ReservedOps) (e f : Entry), e.opcode = f.opcode →
    (e.opcode = ops.fin ∨ e.count = f.count) →
    (ops.holds e.opcode = true ∨ ∀ j (h : j < 64), j < e.count.toNat → e.params[j] = f.params[j]) →
    ops.distinct = true → decodeEntry ops e = decodeEntry ops f

/-- 30_encoding.md R75, R79: the four step kinds with their operands; every other record is rejected. -/
def Obligations.ScriptStepKinds : Prop :=
  ∀ a b c k : U32,
    (a.toNat ≤ 1 → decodeStep ⟨0, a, b, c⟩ = .ok (.sReset (a.getLsbD 0)) ∧
      decodeStep ⟨1, a, b, c⟩ = .ok (.sBias (a.getLsbD 0) b c)) ∧
    (1 < a.toNat → decodeStep ⟨0, a, b, c⟩ = .error .levelOutOfRange ∧
      decodeStep ⟨1, a, b, c⟩ = .error .levelOutOfRange) ∧
    decodeStep ⟨2, a, b, c⟩ = .ok (.sMdelay a) ∧ decodeStep ⟨3, a, b, c⟩ = .ok (.sUdelay a) ∧
    (3 < k.toNat → decodeStep ⟨k, a, b, c⟩ = .error .reservedKind)

/-- 30_encoding.md R77: the code is `h[7:0]`, the payload of CONFIGURE is `h[14:8]`, every other bit is ignored. -/
def Obligations.HostCommandFields : Prop :=
  ∀ (top : BitVec 1) (caps : CapBits) (code : Byte),
    decodeCommand (top ++ caps ++ code) =
      if code = 0x01 then .ok (.hConfigure caps)
      else if code = 0x02 then .ok .hDescribe
      else if code = 0x03 then .ok .hInitialize
      else if code = 0x04 then .ok .hSuspend
      else if code = 0x05 then .ok .hResume
      else .error .badCommandCode

/-- 30_encoding.md R72: the binary image of a table, and reading it back with the padding ignored. -/
def Obligations.TableImageLayout : Prop :=
  (∀ (tab : List Entry) (i : Nat) (e : Entry), tab[i]? = some e →
    (∀ j, j < 4 → (tableImage tab)[72 * i + j]? = some (e.opcode.extractLsb' (8 * j) 8)) ∧
    (tableImage tab)[72 * i + 4]? = some e.count ∧
    (∀ j (h : j < 64), (tableImage tab)[72 * i + 5 + j]? = some e.params[j]) ∧
    (∀ j, j < 3 → (tableImage tab)[72 * i + 69 + j]? = some 0)) ∧
  (∀ tab : List Entry, (tableImage tab).length = 72 * tab.length) ∧
  (∀ (tab : List Entry) (rest : List Byte), loadTable tab.length (tableImage tab ++ rest) = some tab) ∧
  (∀ (bs pad pad' : List Byte), bs.length = 69 → pad.length = 3 → pad'.length = 3 →
    Entry.ofBytes (bs ++ pad) = Entry.ofBytes (bs ++ pad'))

/-- 00_scope.md R11, 20_memory.md R55: the loader's accesses to a binary image are little-endian; a write changes only
the bytes it names. That an access outside the image answers none is the model's choice (log entry 16). -/
def Obligations.ImageReadsBackWhatWasWritten : Prop :=
  ∀ (img : List Byte) (addr n v : Nat),
    (∀ img', memWrite img addr n v = some img' →
      img'.length = img.length ∧ memRead img' addr n = some (v % 256 ^ n) ∧
        ∀ a, a < addr ∨ addr + n ≤ a → img'[a]? = img[a]?) ∧
    (addr + n ≤ img.length → ∃ img', memWrite img addr n v = some img') ∧
    (img.length < addr + n → memWrite img addr n v = none ∧ memRead img addr n = none)

/-- 30_encoding.md R80: the six checks, and that a configuration passes when all of them hold. -/
def Obligations.ConfigurationChecks : Prop :=
  ∀ c : Cfg, cfgCheck c = none ↔
    (∀ e, e ∈ c.initTable ∨ e ∈ c.suspTable →
      e.opcode ≠ c.ops.delay → e.opcode ≠ c.ops.udelay → e.opcode ≠ c.ops.fin → e.count.toNat ≤ 64) ∧
    (c.ops.delay ≠ c.ops.udelay ∧ c.ops.delay ≠ c.ops.fin ∧ c.ops.udelay ≠ c.ops.fin) ∧
    (c.initCount.toNat ≤ c.initTable.length ∧ c.suspCount.toNat ≤ c.suspTable.length ∧
      c.initTable.length ≤ 2 ^ 32 - 1 ∧ c.suspTable.length ≤ 2 ^ 32 - 1) ∧
    (∀ st, st ∈ c.upScript ∨ st ∈ c.downScript →
      st.kind.toNat ≤ 3 ∧ (st.kind = 0 ∨ st.kind = 1 → st.a.toNat ≤ 1)) ∧
    ((c.descriptor.livenessCount.getD 0).toNat ≤ c.esdMax ∧
      ∀ e, e ∈ c.descriptor.liveness → e.count.toNat ≤ c.livenessBytesMax) ∧
    (c.upScript.length ≤ 2 ^ 32 - 1 ∧ c.downScript.length ≤ 2 ^ 32 - 1)

/-- 30_encoding.md R81: a configuration that fails a check has no step and no reset, whatever the state and the
outside world's move. That the model's `step` answers a refusal that names the check is its form of that (log entry 10). -/
def Obligations.RefusedConfigurationHasNoStep : Prop :=
  ∀ s c, cfgCheck s.cfg = some c → step s = .refused (.configRefused c)

/-! ## The kinds of table entry -/

/-- 40_table_interpreter.md R104: WRITE, from the entry on. -/
def Obligations.WriteIssuesTheBusWriteOrFaults : Prop :=
  (∀ (ops : ReservedOps) (e : Entry), e.opcode ≠ ops.delay → e.opcode ≠ ops.udelay → e.opcode ≠ ops.fin →
    decodeEntry ops e = .write e.opcode e.count (e.params.toList.take e.count.toNat)) ∧
  ∀ (op : U32) (k : Byte) (ps : List Byte) (s : State), s.phase = .pushInit ∨ s.phase = .pushSusp → s.pend = false →
    (s.caps.getLsbD 4 = true → exec (.write op k ps) s = .next { s with
      req := .writeCommand op k ps s.force, pend := true, idx := s.idx + 1
      trace := s.trace ++ [.req (.writeCommand op k ps s.force)] }) ∧
    (s.caps.getLsbD 4 = false → exec (.write op k ps) s = .next { s with
      fault := true, faultCode := 0x01, faultInfo := ⟨s.curOp, s.phase.code, s.idx, 4⟩, status := 0x10, curOp := 0
      phase := .faulted, trace := s.trace ++ [.rsp 0x10 none] })

/-- 40_table_interpreter.md R105: DELAY, with the threshold at 10. -/
def Obligations.DelayIssuesByTheThresholdOrFaults : Prop :=
  (∀ (ops : ReservedOps) (e : Entry), e.opcode = ops.delay → decodeEntry ops e = .delay e.count) ∧
  ∀ (k : Byte) (s : State), s.phase = .pushInit ∨ s.phase = .pushSusp → s.pend = false →
    (k.toNat ≤ 10 → s.caps.getLsbD 3 = true → exec (.delay k) s = .next { s with
      req := .delayUs (BitVec.ofNat 32 (k.toNat * 1000)), pend := true, idx := s.idx + 1
      trace := s.trace ++ [.req (.delayUs (BitVec.ofNat 32 (k.toNat * 1000)))] }) ∧
    (10 < k.toNat → s.caps.getLsbD 2 = true → exec (.delay k) s = .next { s with
      req := .delayMs (BitVec.ofNat 32 k.toNat), pend := true, idx := s.idx + 1
      trace := s.trace ++ [.req (.delayMs (BitVec.ofNat 32 k.toNat))] }) ∧
    (k.toNat ≤ 10 → s.caps.getLsbD 3 = false → exec (.delay k) s = .next { s with
      fault := true, faultCode := 0x01, faultInfo := ⟨s.curOp, s.phase.code, s.idx, 3⟩, status := 0x10, curOp := 0
      phase := .faulted, trace := s.trace ++ [.rsp 0x10 none] }) ∧
    (10 < k.toNat → s.caps.getLsbD 2 = false → exec (.delay k) s = .next { s with
      fault := true, faultCode := 0x01, faultInfo := ⟨s.curOp, s.phase.code, s.idx, 2⟩, status := 0x10, curOp := 0
      phase := .faulted, trace := s.trace ++ [.rsp 0x10 none] })

/-- 40_table_interpreter.md R106: UDELAY. -/
def Obligations.UdelayIssuesMicrosecondsOrFaults : Prop :=
  (∀ (ops : ReservedOps) (e : Entry), ops.distinct = true → e.opcode = ops.udelay →
    decodeEntry ops e = .udelay e.count) ∧
  ∀ (k : Byte) (s : State), s.phase = .pushInit ∨ s.phase = .pushSusp → s.pend = false →
    (s.caps.getLsbD 3 = true → exec (.udelay k) s = .next { s with
      req := .delayUs (BitVec.ofNat 32 k.toNat), pend := true, idx := s.idx + 1
      trace := s.trace ++ [.req (.delayUs (BitVec.ofNat 32 k.toNat))] }) ∧
    (s.caps.getLsbD 3 = false → exec (.udelay k) s = .next { s with
      fault := true, faultCode := 0x01, faultInfo := ⟨s.curOp, s.phase.code, s.idx, 3⟩, status := 0x10, curOp := 0
      phase := .faulted, trace := s.trace ++ [.rsp 0x10 none] })

/-- 40_table_interpreter.md R107: END advances the index and does nothing else, whatever the capabilities. -/
def Obligations.EndOnlyAdvances : Prop :=
  (∀ (ops : ReservedOps) (e : Entry), ops.distinct = true → e.opcode = ops.fin → decodeEntry ops e = .endMark) ∧
  ∀ s : State, s.phase = .pushInit ∨ s.phase = .pushSusp → s.pend = false →
    exec .endMark s = .next { s with idx := s.idx + 1 }

/-! ## The kinds of script step -/

/-- 41_power_script.md R131: S_RESET. -/
def Obligations.ScriptResetDrivesTheLineOrFaults : Prop :=
  (∀ a b c : U32, a.toNat ≤ 1 → decodeStep ⟨0, a, b, c⟩ = .ok (.sReset (a.getLsbD 0))) ∧
  ∀ (level : Bool) (s : State), s.phase = .pwrUp ∨ s.phase = .pwrDown → s.pend = false →
    (s.caps.getLsbD 0 = true → exec (.sReset level) s = .next { s with
      req := .setResetPin level, pend := true, sidx := s.sidx + 1, trace := s.trace ++ [.req (.setResetPin level)] }) ∧
    (s.caps.getLsbD 0 = false → exec (.sReset level) s = .next { s with
      fault := true, faultCode := 0x01, faultInfo := ⟨s.curOp, s.phase.code, s.sidx, 0⟩, status := 0x10, curOp := 0
      phase := .faulted, trace := s.trace ++ [.rsp 0x10 none] })

/-- 41_power_script.md R132: S_BIAS. -/
def Obligations.ScriptBiasPassesItsArgumentsOrFaults : Prop :=
  (∀ a b c : U32, a.toNat ≤ 1 → decodeStep ⟨1, a, b, c⟩ = .ok (.sBias (a.getLsbD 0) b c)) ∧
  ∀ (enable : Bool) (order voltage : U32) (s : State), s.phase = .pwrUp ∨ s.phase = .pwrDown → s.pend = false →
    (s.caps.getLsbD 1 = true → exec (.sBias enable order voltage) s = .next { s with
      req := .setBias enable order voltage, pend := true, sidx := s.sidx + 1
      trace := s.trace ++ [.req (.setBias enable order voltage)] }) ∧
    (s.caps.getLsbD 1 = false → exec (.sBias enable order voltage) s = .next { s with
      fault := true, faultCode := 0x01, faultInfo := ⟨s.curOp, s.phase.code, s.sidx, 1⟩, status := 0x10, curOp := 0
      phase := .faulted, trace := s.trace ++ [.rsp 0x10 none] })

/-- 41_power_script.md R133: S_MDELAY, without the threshold of table entries. -/
def Obligations.ScriptMillisecondWaitOrFaults : Prop :=
  (∀ a b c : U32, decodeStep ⟨2, a, b, c⟩ = .ok (.sMdelay a)) ∧
  ∀ (n : U32) (s : State), s.phase = .pwrUp ∨ s.phase = .pwrDown → s.pend = false →
    (s.caps.getLsbD 2 = true → exec (.sMdelay n) s = .next { s with
      req := .delayMs n, pend := true, sidx := s.sidx + 1, trace := s.trace ++ [.req (.delayMs n)] }) ∧
    (s.caps.getLsbD 2 = false → exec (.sMdelay n) s = .next { s with
      fault := true, faultCode := 0x01, faultInfo := ⟨s.curOp, s.phase.code, s.sidx, 2⟩, status := 0x10, curOp := 0
      phase := .faulted, trace := s.trace ++ [.rsp 0x10 none] })

/-- 41_power_script.md R134: S_UDELAY. -/
def Obligations.ScriptMicrosecondWaitOrFaults : Prop :=
  (∀ a b c : U32, decodeStep ⟨3, a, b, c⟩ = .ok (.sUdelay a)) ∧
  ∀ (n : U32) (s : State), s.phase = .pwrUp ∨ s.phase = .pwrDown → s.pend = false →
    (s.caps.getLsbD 3 = true → exec (.sUdelay n) s = .next { s with
      req := .delayUs n, pend := true, sidx := s.sidx + 1, trace := s.trace ++ [.req (.delayUs n)] }) ∧
    (s.caps.getLsbD 3 = false → exec (.sUdelay n) s = .next { s with
      fault := true, faultCode := 0x01, faultInfo := ⟨s.curOp, s.phase.code, s.sidx, 3⟩, status := 0x10, curOp := 0
      phase := .faulted, trace := s.trace ++ [.rsp 0x10 none] })

/-! ## The host commands -/

/-- 42_lifecycle.md R153: CONFIGURE stores its payload whatever it is, and in `FAULTED` only answers `ST_FAULTED`. -/
def Obligations.ConfigureStoresTheCapabilities : Prop :=
  (∀ h : CmdWord, h.toNat % 256 = 1 → decodeCommand h = .ok (.hConfigure (BitVec.ofNat 7 (h.toNat / 256)))) ∧
  ∀ (caps : CapBits) (s : State), s.pend = false →
    (s.phase = .idle → exec (.hConfigure caps) s = .next { s with
      caps := caps, capValid := true, status := 0x00, curOp := 0, trace := s.trace ++ [.rsp 0x00 none] }) ∧
    (s.phase = .faulted → exec (.hConfigure caps) s = .next { s with
      status := 0x04, curOp := 0, trace := s.trace ++ [.rsp 0x04 none] })

/-- 42_lifecycle.md R154: DESCRIBE answers the completed descriptor of CFG, in every lifecycle state, configured or not. -/
def Obligations.DescribeAnswersTheDescriptor : Prop :=
  (∀ h : CmdWord, h.toNat % 256 = 2 → decodeCommand h = .ok .hDescribe) ∧
  ∀ s : State, s.pend = false →
    (s.phase = .idle → exec .hDescribe s = .next { s with
      status := 0x00, curOp := 0, trace := s.trace ++ [.rsp 0x00 (some (zeroFill s.cfg))] }) ∧
    (s.phase = .faulted → exec .hDescribe s = .next { s with
      status := 0x04, curOp := 0, trace := s.trace ++ [.rsp 0x04 none] })

/-- 42_lifecycle.md R155: INITIALIZE starts the power-up script from every lifecycle state of a configured block. -/
def Obligations.InitializeStartsThePowerUpScript : Prop :=
  ∀ s : State, s.pend = false →
    (s.phase = .idle → s.capValid = true → exec .hInitialize s = .next { s with
      curOp := 3, sidx := 0, phase := .pwrUp }) ∧
    (s.phase = .idle → s.capValid = false → exec .hInitialize s = .next { s with
      status := 0x02, curOp := 0, trace := s.trace ++ [.rsp 0x02 none] }) ∧
    (s.phase = .faulted → exec .hInitialize s = .next { s with
      status := 0x04, curOp := 0, trace := s.trace ++ [.rsp 0x04 none] })

/-- 42_lifecycle.md R156, R160, 60_exceptions.md R194: SUSPEND starts the push of the suspend table, from `ACTIVE` only
when transitions are checked. -/
def Obligations.SuspendStartsTheSuspendPush : Prop :=
  ∀ s : State, s.pend = false →
    (s.phase = .idle → s.capValid = true → (s.cfg.checkTransitions = false ∨ s.lstate = .active) →
      exec .hSuspend s = .next { s with
        curOp := 4, tsel := .susp, count := s.cfg.suspCount, force := s.cfg.suspForce, idx := 0, phase := .pushSusp }) ∧
    (s.phase = .idle → s.capValid = true → s.cfg.checkTransitions = true → s.lstate ≠ .active →
      exec .hSuspend s = .next { s with
        status := 0x01, curOp := 0, trace := s.trace ++ [.rsp 0x01 none] }) ∧
    (s.phase = .idle → s.capValid = false → exec .hSuspend s = .next { s with
      status := 0x02, curOp := 0, trace := s.trace ++ [.rsp 0x02 none] }) ∧
    (s.phase = .faulted → exec .hSuspend s = .next { s with
      status := 0x04, curOp := 0, trace := s.trace ++ [.rsp 0x04 none] })

/-- 42_lifecycle.md R157, R160, 60_exceptions.md R194: RESUME starts the power-up script, from `SUSPENDED` only when
transitions are checked. -/
def Obligations.ResumeStartsThePowerUpScript : Prop :=
  ∀ s : State, s.pend = false →
    (s.phase = .idle → s.capValid = true → (s.cfg.checkTransitions = false ∨ s.lstate = .suspended) →
      exec .hResume s = .next { s with curOp := 5, sidx := 0, phase := .pwrUp }) ∧
    (s.phase = .idle → s.capValid = true → s.cfg.checkTransitions = true → s.lstate ≠ .suspended →
      exec .hResume s = .next { s with
        status := 0x01, curOp := 0, trace := s.trace ++ [.rsp 0x01 none] }) ∧
    (s.phase = .idle → s.capValid = false → exec .hResume s = .next { s with
      status := 0x02, curOp := 0, trace := s.trace ++ [.rsp 0x02 none] }) ∧
    (s.phase = .faulted → exec .hResume s = .next { s with
      status := 0x04, curOp := 0, trace := s.trace ++ [.rsp 0x04 none] })

/-- 20_memory.md R53, R54: every field the panel model sets is returned, every other reads as 0; the liveness table has
ESD_MAX entries and is 0 at and beyond `liveness_count` and at and beyond an entry's `count`. A field, an entry or a byte
that the model does not give below those counts is 0 too. The `extra` map answers its first entry of a name: the
model's choice (log entry 15). -/
def Obligations.DescriptorIsCompletedWithZeros : Prop :=
  ∀ c : Cfg,
    ((zeroFill c).width = c.descriptor.width.getD 0 ∧ (zeroFill c).height = c.descriptor.height.getD 0 ∧
      (zeroFill c).density = c.descriptor.density.getD 0 ∧ (zeroFill c).format = c.descriptor.format.getD 0 ∧
      (zeroFill c).vsyncActive = c.descriptor.vsyncActive.getD 0 ∧ (zeroFill c).vbp = c.descriptor.vbp.getD 0 ∧
      (zeroFill c).vfp = c.descriptor.vfp.getD 0 ∧ (zeroFill c).hsyncActive = c.descriptor.hsyncActive.getD 0 ∧
      (zeroFill c).hbp = c.descriptor.hbp.getD 0 ∧ (zeroFill c).hfp = c.descriptor.hfp.getD 0 ∧
      (zeroFill c).clock = c.descriptor.clock.getD 0 ∧ (zeroFill c).lanes = c.descriptor.lanes.getD 0 ∧
      (zeroFill c).livenessCount = c.descriptor.livenessCount.getD 0) ∧
    (zeroFill c).liveness.length = c.esdMax ∧
    (∀ (i : Nat) (e : LivenessEntry), (zeroFill c).liveness[i]? = some e →
      e.expected.length = c.livenessBytesMax ∧
      ((zeroFill c).livenessCount.toNat ≤ i ∨ c.descriptor.liveness.length ≤ i →
        e.opcode = 0 ∧ e.count = 0 ∧ ∀ b ∈ e.expected, b = 0) ∧
      (∀ j b, e.count.toNat ≤ j → e.expected[j]? = some b → b = 0)) ∧
    (∀ (i : Nat) (m : LivenessSpec), i < (zeroFill c).livenessCount.toNat → i < c.esdMax →
      c.descriptor.liveness[i]? = some m →
      ∃ e, (zeroFill c).liveness[i]? = some e ∧ e.opcode = m.opcode.getD 0 ∧ e.count = m.count ∧
        ∀ j, j < m.count.toNat → j < c.livenessBytesMax → e.expected[j]? = some (m.expected.getD j 0)) ∧
    (∀ name, extraField (zeroFill c) name = (c.descriptor.extra.lookup name).getD 0)

/-! ## What a step runs -/

/-- 40_table_interpreter.md R102: with an entry left to read, a push step is the meaning of the decoded entry. HOST, if
it presents a command, is held. -/
def Obligations.PushStepRunsTheDecodedEntry : Prop :=
  ∀ (s : State) (e : Entry), s.live → s.phase = .pushInit ∨ s.phase = .pushSusp → s.pend = false →
    s.idx.toNat < s.count.toNat →
    (if s.tsel = .init then s.cfg.initTable else s.cfg.suspTable)[s.idx.toNat]? = some e →
    (s.inputs = [] → step s = exec (decodeEntry s.cfg.ops e) s) ∧
    (∀ rest, s.inputs = .run :: rest → step s = exec (decodeEntry s.cfg.ops e) { s with inputs := rest }) ∧
    (∀ h rest, s.inputs = .command h :: rest → step s = exec (decodeEntry s.cfg.ops e) s)

/-- 41_power_script.md R130: with a step left to read, a script step is the meaning of the decoded step. -/
def Obligations.ScriptStepRunsTheDecodedStep : Prop :=
  ∀ (s : State) (st : ScriptStep) (i : Instr), s.live → s.phase = .pwrUp ∨ s.phase = .pwrDown → s.pend = false →
    (if s.phase = .pwrUp then s.cfg.upScript else s.cfg.downScript)[s.sidx.toNat]? = some st →
    decodeStep st = .ok i →
    (s.inputs = [] → step s = exec i s) ∧
    (∀ rest, s.inputs = .run :: rest → step s = exec i { s with inputs := rest }) ∧
    (∀ h rest, s.inputs = .command h :: rest → step s = exec i s)

/-- 42_lifecycle.md R150: an accept step appends `cmd(h)` and is the meaning of the decoded command. -/
def Obligations.AcceptStepRunsTheDecodedCommand : Prop :=
  ∀ (s : State) (h : CmdWord) (rest : List Input) (i : Instr), s.live → s.phase = .idle ∨ s.phase = .faulted →
    s.pend = false → s.inputs = .command h :: rest → decodeCommand h = .ok i →
    step s = exec i { s with inputs := rest, trace := s.trace ++ [.cmd h] }

/-- 42_lifecycle.md R152, 60_exceptions.md R198: the accept step of every command word, its checks in order. -/
def Obligations.AcceptStepChecksInOrder : Prop :=
  ∀ (s : State) (h : CmdWord) (rest : List Input), s.live → s.phase = .idle ∨ s.phase = .faulted → s.pend = false →
    s.inputs = .command h :: rest →
    step s = .next (
      if s.phase = .faulted then
        { s with inputs := rest, status := 0x04, curOp := 0, trace := s.trace ++ [.cmd h, .rsp 0x04 none] }
      else if ¬ (1 ≤ h.toNat % 256 ∧ h.toNat % 256 ≤ 5) then
        { s with inputs := rest, status := 0x03, curOp := 0, trace := s.trace ++ [.cmd h, .rsp 0x03 none] }
      else if h.toNat % 256 = 1 then
        { s with inputs := rest, caps := BitVec.ofNat 7 (h.toNat / 256), capValid := true, status := 0x00, curOp := 0
                 trace := s.trace ++ [.cmd h, .rsp 0x00 none] }
      else if h.toNat % 256 = 2 then
        { s with inputs := rest, status := 0x00, curOp := 0
                 trace := s.trace ++ [.cmd h, .rsp 0x00 (some (zeroFill s.cfg))] }
      else if s.capValid = false then
        { s with inputs := rest, status := 0x02, curOp := 0, trace := s.trace ++ [.cmd h, .rsp 0x02 none] }
      else if s.cfg.checkTransitions = true ∧
          ((h.toNat % 256 = 4 ∧ s.lstate ≠ .active) ∨ (h.toNat % 256 = 5 ∧ s.lstate ≠ .suspended)) then
        { s with inputs := rest, status := 0x01, curOp := 0, trace := s.trace ++ [.cmd h, .rsp 0x01 none] }
      else if h.toNat % 256 = 4 then
        { s with inputs := rest, curOp := 4, tsel := .susp, count := s.cfg.suspCount, force := s.cfg.suspForce, idx := 0
                 phase := .pushSusp, trace := s.trace ++ [.cmd h] }
      else
        { s with inputs := rest, curOp := BitVec.ofNat 3 (h.toNat % 256), sidx := 0, phase := .pwrUp
                 trace := s.trace ++ [.cmd h] })

/-- 40_table_interpreter.md R109: the end of a push, for both tables. -/
def Obligations.PushDoneEndsThePush : Prop :=
  ∀ s : State, s.live → s.phase = .pushInit ∨ s.phase = .pushSusp → s.pend = false → s.count.toNat ≤ s.idx.toNat →
    onlyHost s.inputs →
    (s.tsel = .init → step s = .next { s with
      lstate := .active, status := 0x00, curOp := 0, phase := .idle, trace := s.trace ++ [.rsp 0x00 none] }) ∧
    (s.tsel = .susp → step s = .next { s with sidx := 0, phase := .pwrDown })

/-- 41_power_script.md R137: the end of a script, for both scripts. -/
def Obligations.ScriptDoneEndsTheScript : Prop :=
  ∀ s : State, s.live → s.pend = false → onlyHost s.inputs →
    (s.phase = .pwrUp → s.cfg.upScript.length ≤ s.sidx.toNat → step s = .next { s with
      tsel := .init, count := s.cfg.initCount, force := true, idx := 0, phase := .pushInit }) ∧
    (s.phase = .pwrDown → s.cfg.downScript.length ≤ s.sidx.toNat → step s = .next { s with
      lstate := .suspended, status := 0x00, curOp := 0, phase := .idle, trace := s.trace ++ [.rsp 0x00 none] })

/-- 40_table_interpreter.md R108: ENV's completion writes `PEND` and the trace and nothing else, and `done` is appended
only when a request was outstanding. The model's readings that it rests on: `REQ` is kept (log entry 4), ENV acts when it
is scheduled (log entry 5), before a presented command in `IDLE` and `FAULTED` (log entry 18), and also where a register
holds a reserved value (log entry 9). -/
def Obligations.EnvironmentCompletesTheOutstandingRequest : Prop :=
  (∀ s : State, cfgCheck s.cfg = none → s.pend = true →
    (onlyHost s.inputs → step s = .next { s with pend := false, trace := s.trace ++ [.done] }) ∧
    (∀ rest, s.inputs = .run :: rest →
      step s = .next { s with pend := false, trace := s.trace ++ [.done], inputs := rest })) ∧
  (∀ s t : State, step s = .next t → s.pend = false → s.inputs.head? ≠ some .reset →
    ∃ es, t.trace = s.trace ++ es ∧ Event.done ∉ es)

/-- 10_state.md R32: while the block is busy a presented command stays presented and no `cmd` event is appended. -/
def Obligations.HostIsHeldWhileBusy : Prop :=
  ∀ (s t : State) (h : CmdWord) (rest : List Input), s.phase.isBusy = true → s.inputs = .command h :: rest →
    step s = .next t → t.inputs = .command h :: rest ∧ ∃ es, t.trace = s.trace ++ es ∧ ∀ g, Event.cmd g ∉ es

/-- 42_lifecycle.md R165: the meanings stop, by name, where SEQ has no such step. -/
def Obligations.MeaningsStopWhereSeqHasNoStep : Prop :=
  ∀ (i : Instr) (s : State),
    (i.format = .e → s.canPush = false → exec i s = .fault .notEnabled) ∧
    (i.format = .s → s.canScript = false → exec i s = .fault .notEnabled) ∧
    (i.format = .h → s.canAccept = false → exec i s = .fault .notEnabled)

/-- 93_implementation_defined.md U10: SEQ is stuck while a register holds a reserved value. That the model stops with a
named fault there is its reading of 'stuck' (log entry 9). -/
def Obligations.ReservedValuesLeaveSeqStuck : Prop :=
  ∀ s : State, cfgCheck s.cfg = none → s.pend = false →
    (s.lstate = .reserved3 ∨ s.phase = .reserved6 ∨ s.phase = .reserved7 ∨
      s.status ∉ [(0x00 : Byte), 0x01, 0x02, 0x03, 0x04, 0x10] ∨ s.faultCode ∉ [(0x00 : Byte), 0x01]) →
    onlyHost s.inputs → step s = .fault .reservedRegister

/-- 70_reset_and_hazards.md R222, 42_lifecycle.md R165: with no command the block waits; the model's step then changes
nothing (log entry 6). A stalled step changes nothing but the schedule (log entry 5). -/
def Obligations.BlockWaitsForACommand : Prop :=
  (∀ s : State, s.live → s.phase = .idle ∨ s.phase = .faulted → s.pend = false → s.inputs = [] → step s = .next s) ∧
  (∀ (s : State) (rest : List Input), cfgCheck s.cfg = none → s.inputs = .stall :: rest →
    step s = .next { s with inputs := rest })

/-! ## Frames -/

/-- What the four kinds of table entry leave unchanged (40_table_interpreter.md R103 to R107, 60_exceptions.md R196); the
trace is extended by at most one event (20_memory.md R56). -/
def Obligations.EntryFrame : Prop :=
  ∀ (i : Instr) (s t : State), i.format = .e → exec i s = .next t →
    (t.lstate = s.lstate ∧ t.capValid = s.capValid ∧ t.caps = s.caps ∧ t.count = s.count ∧ t.tsel = s.tsel ∧
      t.force = s.force ∧ t.sidx = s.sidx ∧ t.cfg = s.cfg ∧ t.inputs = s.inputs) ∧
    ((t.phase = s.phase ∧ t.curOp = s.curOp ∧ t.status = s.status ∧ t.fault = s.fault ∧ t.faultCode = s.faultCode ∧
        t.faultInfo = s.faultInfo ∧ t.idx = s.idx + 1) ∨
      (t.phase = .faulted ∧ t.idx = s.idx ∧ t.req = s.req ∧ t.pend = s.pend)) ∧
    (i = .endMark → t.trace = s.trace ∧ t.req = s.req ∧ t.pend = s.pend) ∧
    ∃ es, es.length ≤ 1 ∧ t.trace = s.trace ++ es

/-- What the four kinds of script step leave unchanged (41_power_script.md R130 to R134, 60_exceptions.md R196); the trace
is extended by one event (20_memory.md R56). -/
def Obligations.ScriptFrame : Prop :=
  ∀ (i : Instr) (s t : State), i.format = .s → exec i s = .next t →
    (t.lstate = s.lstate ∧ t.capValid = s.capValid ∧ t.caps = s.caps ∧ t.count = s.count ∧ t.tsel = s.tsel ∧
      t.force = s.force ∧ t.idx = s.idx ∧ t.cfg = s.cfg ∧ t.inputs = s.inputs) ∧
    ((t.phase = s.phase ∧ t.curOp = s.curOp ∧ t.status = s.status ∧ t.fault = s.fault ∧ t.faultCode = s.faultCode ∧
        t.faultInfo = s.faultInfo ∧ t.sidx = s.sidx + 1) ∨
      (t.phase = .faulted ∧ t.sidx = s.sidx ∧ t.req = s.req ∧ t.pend = s.pend)) ∧
    ∃ es, es.length = 1 ∧ t.trace = s.trace ++ es

/-- What the five host commands leave unchanged in their accept step (42_lifecycle.md R152 to R157); the
meaning extends the trace by at most one event, after the accept step's `cmd` (log entry 8). -/
def Obligations.CommandFrame : Prop :=
  ∀ (i : Instr) (s t : State), i.format = .h → exec i s = .next t →
    (t.lstate = s.lstate ∧ t.pend = s.pend ∧ t.req = s.req ∧ t.fault = s.fault ∧ t.faultCode = s.faultCode ∧
      t.faultInfo = s.faultInfo ∧ t.cfg = s.cfg ∧ t.inputs = s.inputs) ∧
    ((∃ c, i = .hConfigure c) ∨ (t.caps = s.caps ∧ t.capValid = s.capValid)) ∧
    (i = .hSuspend ∨ (t.idx = s.idx ∧ t.count = s.count ∧ t.tsel = s.tsel ∧ t.force = s.force)) ∧
    (i = .hInitialize ∨ i = .hResume ∨ t.sidx = s.sidx) ∧
    (i = .hInitialize ∨ i = .hSuspend ∨ i = .hResume ∨ t.phase = s.phase) ∧
    ∃ es, es.length ≤ 1 ∧ t.trace = s.trace ++ es

/-! ## Rules of the whole machine -/

/-- Every step keeps the invariant `State.Inv`, from every state that meets it. -/
def Obligations.EveryStepKeepsTheInvariant : Prop :=
  ∀ s t : State, s.Inv → step s = .next t → t.Inv

/-- A state that meets the invariant never stops: a step answers a next state. -/
def Obligations.InvariantStatesNeverStop : Prop :=
  ∀ s : State, s.Inv → ∃ t, step s = .next t

/-- 20_memory.md R51: no step writes CFG. -/
def Obligations.NoStepWritesTheConfiguration : Prop :=
  ∀ s t : State, step s = .next t → t.cfg = s.cfg

/-- 42_lifecycle.md R159: `LSTATE` is written only by a completion and at reset; the completion answers `ST_OK` and
returns to `IDLE`. -/
def Obligations.LifecycleStateIsWrittenOnlyByCompletion : Prop :=
  ∀ s t : State, step s = .next t → s.inputs.head? ≠ some .reset → t.lstate ≠ s.lstate →
    s.pend = false ∧ t.phase = .idle ∧ t.curOp = 0 ∧ t.status = 0x00 ∧ t.trace = s.trace ++ [.rsp 0x00 none] ∧
    ((t.lstate = .active ∧ (s.phase = .pushInit ∨ s.phase = .pushSusp) ∧ s.tsel = .init ∧ s.count.toNat ≤ s.idx.toNat) ∨
      (t.lstate = .suspended ∧ s.phase = .pwrDown ∧ s.cfg.downScript.length ≤ s.sidx.toNat))

/-- 10_state.md R27: only CONFIGURE writes `CAPS` and `CAP_VALID`, and reset. -/
def Obligations.CapabilitiesAreWrittenOnlyByConfigure : Prop :=
  ∀ s t : State, step s = .next t → s.inputs.head? ≠ some .reset → t.caps ≠ s.caps ∨ t.capValid ≠ s.capValid →
    ∃ h rest, s.inputs = .command h :: rest ∧ s.phase = .idle ∧ s.pend = false ∧ h.toNat % 256 = 1 ∧
      t.caps = BitVec.ofNat 7 (h.toNat / 256) ∧ t.capValid = true

/-- 10_state.md R22, R28: an index moves by one or is set to 0, and the arguments of a push are written only when one
starts. -/
def Obligations.IndicesAndPushArgumentsMoveOnlyAsStated : Prop :=
  ∀ s t : State, step s = .next t →
    (t.idx = s.idx ∨ t.idx = s.idx + 1 ∨ t.idx = 0) ∧
    (t.sidx = s.sidx ∨ t.sidx = s.sidx + 1 ∨ t.sidx = 0) ∧
    (s.phase.isPush = true → s.inputs.head? ≠ some .reset →
      t.count = s.count ∧ t.tsel = s.tsel ∧ t.force = s.force) ∧
    (t.idx = s.idx + 1 → t.idx ≠ 0 → s.phase.isPush = true ∧ s.idx.toNat < s.count.toNat)

/-- 40_table_interpreter.md R101: a request becomes outstanding only in a busy phase, with none outstanding before, with
its capability present, and with its `req` event; kinds 5 and 6 never do (10_state.md R34). -/
def Obligations.RequestsNeedTheirCapability : Prop :=
  ∀ s t : State, step s = .next t → s.pend = false → t.pend = true →
    s.caps.getLsbD t.req.kind = true ∧ t.req.kind ≤ 4 ∧ t.trace = s.trace ++ [.req t.req] ∧ s.phase.isBusy = true ∧
      t.phase = s.phase

/-- 60_exceptions.md R195, R196: a step that takes the fault was a push or script step with no request outstanding whose
capability `FAULT_INFO` names as missing, and it writes exactly what the fault entry writes. -/
def Obligations.FaultEntryIsPrecise : Prop :=
  ∀ s t : State, step s = .next t → s.fault = false → t.fault = true →
    s.pend = false ∧ s.phase.isBusy = true ∧
    ∃ cap : BitVec 3, cap.toNat ≤ 4 ∧ s.caps.getLsbD cap.toNat = false ∧
      t = { s with
        fault := true, faultCode := 0x01
        faultInfo := ⟨s.curOp, s.phase.code, if s.phase.isPush then s.idx else s.sidx, cap⟩
        status := 0x10, curOp := 0, phase := .faulted, trace := s.trace ++ [.rsp 0x10 none], inputs := t.inputs }

/-- 42_lifecycle.md R163: nothing but reset leaves the busy phases, save a completion or a fault, each with its one
response. -/
def Obligations.BusyEndsOnlyWithAResponse : Prop :=
  ∀ s t : State, step s = .next t → s.phase.isBusy = true → s.inputs.head? ≠ some .reset →
    t.phase.isBusy = true ∨ (t.phase = .idle ∧ t.trace = s.trace ++ [.rsp 0x00 none]) ∨
      (t.phase = .faulted ∧ t.trace = s.trace ++ [.rsp 0x10 none])

/-- 20_memory.md R66, 60_exceptions.md R203: a step of one block of a system changes no other block. -/
def Obligations.BlocksOfASystemAreIndependent : Prop :=
  ∀ (sys : List State) (n : Nat) (s : State), sys[n]? = some s →
    (∀ sys', systemStep sys n = some (.next sys') →
      ∃ t, step s = .next t ∧ sys'[n]? = some t ∧ ∀ m, m ≠ n → sys'[m]? = sys[m]?) ∧
    (∀ t, step s = .next t → ∃ sys', systemStep sys n = some (.next sys'))

/-! ## Laws of runs -/

/-- 40_table_interpreter.md R110: a push whose capabilities are present takes one step per entry and one per request,
issues the requests of the first `COUNT` entries in index order, each completed before the next, and ends with
`IDX = COUNT`. -/
def Obligations.PushIssuesItsTableInOrder : Prop :=
  ∀ s : State, s.Inv → s.phase.isPush = true → s.pend = false → s.idx = 0 → onlyHost s.inputs →
    s.hasCaps (tableRequests s.cfg.ops s.force ((s.tsel.entries s.cfg).take s.count.toNat)) = true →
    ∃ t, core.run (s.count.toNat +
        (tableRequests s.cfg.ops s.force ((s.tsel.entries s.cfg).take s.count.toNat)).length) s = .next t ∧
      t.trace = s.trace ++
        completedTrace (tableRequests s.cfg.ops s.force ((s.tsel.entries s.cfg).take s.count.toNat)) ∧
      t.idx = s.count ∧ t.pend = false ∧ t.phase = s.phase ∧ t.lstate = s.lstate ∧ t.fault = false ∧
      t.inputs = s.inputs

/-- 40_table_interpreter.md R110 (2) to (4): how many writes and delays a table asks for. -/
def Obligations.TableRequestCounts : Prop :=
  ∀ (ops : ReservedOps) (f : Bool) (es : List Entry), ops.distinct = true →
    (tableRequests ops f es).countP (fun p => p.kind == 4) = es.countP (fun e => !ops.holds e.opcode) ∧
    (tableRequests ops f es).countP (fun p => p.kind == 2 || p.kind == 3) =
      es.countP (fun e => e.opcode == ops.delay || e.opcode == ops.udelay) ∧
    (tableRequests ops f es).length = es.countP (fun e => e.opcode != ops.fin)

/-- 42_lifecycle.md R155, R162, 20_memory.md R61, R62: an INITIALIZE whose capabilities are present runs the whole
power-up script and the whole init push, whatever the lifecycle state, and ends `ACTIVE` with `ST_OK`. -/
def Obligations.InitializeRunsToCompletion : Prop :=
  ∀ (s : State) (h : CmdWord) (rest : List Input), s.Inv → s.phase = .idle → s.capValid = true →
    s.inputs = .command h :: rest → onlyHost rest → h.toNat % 256 = 3 → s.hasCaps (powerUpRequests s.cfg) = true →
    ∃ t, core.run (3 + s.cfg.upScript.length + s.cfg.initCount.toNat + (powerUpRequests s.cfg).length) s = .next t ∧
      t.trace = s.trace ++ [.cmd h] ++ completedTrace (powerUpRequests s.cfg) ++ [.rsp 0x00 none] ∧
      t.lstate = .active ∧ t.phase = .idle ∧ t.pend = false ∧ t.fault = false ∧ t.status = 0x00 ∧
      t.caps = s.caps ∧ t.cfg = s.cfg ∧ t.inputs = rest

/-- 42_lifecycle.md R156, R164, 20_memory.md R61, R62: a SUSPEND whose capabilities are present issues the suspend
table, then the power-down script, and nothing else, and ends `SUSPENDED` with `ST_OK`. -/
def Obligations.SuspendRunsToCompletion : Prop :=
  ∀ (s : State) (h : CmdWord) (rest : List Input), s.Inv → s.phase = .idle → s.capValid = true →
    (s.cfg.checkTransitions = false ∨ s.lstate = .active) →
    s.inputs = .command h :: rest → onlyHost rest → h.toNat % 256 = 4 → s.hasCaps (powerDownRequests s.cfg) = true →
    ∃ t, core.run (3 + s.cfg.downScript.length + s.cfg.suspCount.toNat + (powerDownRequests s.cfg).length) s =
        .next t ∧
      t.trace = s.trace ++ [.cmd h] ++ completedTrace (powerDownRequests s.cfg) ++ [.rsp 0x00 none] ∧
      t.lstate = .suspended ∧ t.phase = .idle ∧ t.pend = false ∧ t.fault = false ∧ t.status = 0x00 ∧
      t.caps = s.caps ∧ t.cfg = s.cfg ∧ t.inputs = rest

/-- 60_exceptions.md R195, R196: an INITIALIZE that meets a missing capability issues and completes exactly the
requests before it, then answers `ST_FAULT_MISSING_CAP` and is `FAULTED`, with `LSTATE` unchanged. -/
def Obligations.InitializeStopsAtAMissingCapability : Prop :=
  ∀ (s : State) (h : CmdWord) (pre post : List Request) (p : Request), s.Inv → s.phase = .idle → s.capValid = true →
    s.inputs = [.command h] → h.toNat % 256 = 3 → powerUpRequests s.cfg = pre ++ p :: post →
    s.hasCaps pre = true → s.hasCap p = false →
    ∃ k t, core.run k s = .next t ∧
      t.trace = s.trace ++ [.cmd h] ++ completedTrace pre ++ [.rsp 0x10 none] ∧
      t.phase = .faulted ∧ t.fault = true ∧ t.faultCode = 0x01 ∧ t.faultInfo.op = 3 ∧
      t.faultInfo.cap = BitVec.ofNat 3 p.kind ∧ t.lstate = s.lstate ∧ t.caps = s.caps ∧ t.pend = false ∧
      t.status = 0x10

/-- 42_lifecycle.md R161: a RESUME and an INITIALIZE from the same state, neither rejected, have the same `req` events
and response statuses for as long as they run, whatever the outside world does afterwards. -/
def Obligations.ResumeIsObservablyInitialize : Prop :=
  ∀ (n : Nat) (s t : State) (h5 h3 : CmdWord) (rest : List Input), s.phase = .idle → s.pend = false →
    s.capValid = true → (s.cfg.checkTransitions = false ∨ s.lstate = .suspended) → h5.toNat % 256 = 5 →
    h3.toNat % 256 = 3 → core.run n { s with inputs := .command h5 :: rest } = .next t →
    ∃ u, core.run n { s with inputs := .command h3 :: rest } = .next u ∧
      requestsOf u.trace = requestsOf t.trace ∧ statusesOf u.trace = statusesOf t.trace ∧ u.lstate = t.lstate ∧
      u.phase = t.phase ∧ u.pend = t.pend ∧ u.caps = t.caps

/-- 42_lifecycle.md R164: INITIALIZE followed at once by SUSPEND issues, in order, the power-up requests, then the
suspend table's, then the power-down script's, with one `ST_OK` after each command. -/
def Obligations.InitializeThenSuspend : Prop :=
  ∀ (s : State) (h3 h4 : CmdWord), s.Inv → s.phase = .idle → s.capValid = true →
    s.inputs = [.command h3, .command h4] → h3.toNat % 256 = 3 → h4.toNat % 256 = 4 →
    s.hasCaps (powerUpRequests s.cfg) = true → s.hasCaps (powerDownRequests s.cfg) = true →
    ∃ k t, core.run k s = .next t ∧ t.goodEnd ∧ t.lstate = .suspended ∧
      t.trace = s.trace ++ [.cmd h3] ++ completedTrace (powerUpRequests s.cfg) ++ [.rsp 0x00 none] ++
        [.cmd h4] ++ completedTrace (powerDownRequests s.cfg) ++ [.rsp 0x00 none]

/-- Every run keeps the invariant, so every trace from a state that meets it alternates as 20_memory.md R62 and
42_lifecycle.md R151 say. -/
def Obligations.EveryRunHasALegalTrace : Prop :=
  ∀ (n : Nat) (s t : State), s.Inv → core.run n s = .next t →
    ∃ x, exchangeOf t.trace = some x ∧ (x = .ready ↔ t.phase.isBusy = false) ∧ (x = .waiting ↔ t.pend = true)

/-- 30_encoding.md R83: a written entry stands for the record with its bytes first and zeros after; a WRITE with more
bytes than its count is not writable. -/
def Obligations.WrittenEntryStandsForItsRecord : Prop :=
  ∀ (ops : ReservedOps) (t : EntryText) (op : U32), t.op.value ops = some op →
    (t.bytes.length ≤ 64 → ops.holds op = true ∨ t.bytes.length ≤ t.count.toNat →
      ∃ e, t.entry ops = some e ∧ e.opcode = op ∧ e.count = t.count ∧
        ∀ j (h : j < 64), e.params[j] = t.bytes.getD j 0) ∧
    (64 < t.bytes.length ∨ (ops.holds op = false ∧ t.count.toNat < t.bytes.length) → t.entry ops = none)
end

