-- ==== Sys2Proof/Laws/Decode.lean ====
section
/-! SUPPORT. Lemmas about the decoder and the encoder: record images read back, command fields, entry kinds. -/

namespace Sys2Proof

open Machine

/-! ## Bytes -/

/-- The four little-endian bytes of a word give it back. -/
@[simp] theorem le32_extract (v : U32) :
    le32 (v.extractLsb' 0 8) (v.extractLsb' 8 8) (v.extractLsb' 16 8) (v.extractLsb' 24 8) = v := by
  apply BitVec.eq_of_getLsbD_eq
  intro i hi
  simp only [le32, BitVec.getLsbD_append, BitVec.getLsbD_extractLsb']
  by_cases h0 : i < 8
  · simp [h0]
  · by_cases h1 : i < 16
    · simp [h0, show i - 8 < 8 by omega, show 8 + (i - 8) = i by omega]
    · by_cases h2 : i < 24
      · simp [h0, show ¬ i - 8 < 8 by omega, show i - 8 - 8 < 8 by omega, show 16 + (i - 8 - 8) = i by omega]
      · simp [h0, show ¬ i - 8 < 8 by omega, show ¬ i - 8 - 8 < 8 by omega, show i - 8 - 8 - 8 < 8 by omega,
          show 24 + (i - 8 - 8 - 8) = i by omega]

@[simp] theorem u32Bytes_length (v : U32) : (u32Bytes v).length = 4 := rfl

@[simp] theorem natBytes_length (n w : Nat) : (natBytes n w).length = n := by
  induction n generalizing w with
  | zero => rfl
  | succ n ih => simp [natBytes, ih]

/-- The parameter field holds its leading bytes and zeros after them. -/
theorem paramsOf_toList (l : List Byte) :
    (paramsOf l).toList = l.take 64 ++ List.replicate (64 - l.length) 0#8 := rfl

/-- A field made of all its own bytes is itself. -/
@[simp] theorem paramsOf_params (p : Vector Byte 64) : paramsOf p.toList = p := by
  apply Vector.toList_inj.1
  simp [paramsOf_toList, List.take_of_length_le]

/-- A parameter byte: the written one, or zero beyond the written ones (30_encoding.md R83). -/
theorem paramsOf_getElem (l : List Byte) (hl : l.length ≤ 64) (j : Nat) (h : j < 64) :
    (paramsOf l)[j] = l.getD j 0 := by
  have hj : (paramsOf l).toList[j]? = some (paramsOf l)[j] := by simp [h]
  rw [paramsOf_toList, List.take_of_length_le hl] at hj
  rw [List.getD_eq_getElem?_getD]
  by_cases hw : j < l.length
  · rw [List.getElem?_append_left hw] at hj
    rw [hj, Option.getD_some]
  · rw [List.getElem?_append_right (by omega), List.getElem?_replicate, if_pos (by omega)] at hj
    rw [List.getElem?_eq_none (by omega)]
    simpa using hj.symm

/-! ## Record images -/

@[simp] theorem Entry.toBytes_length (e : Entry) : e.toBytes.length = 72 := by
  simp [Entry.toBytes]

@[simp] theorem ScriptStep.toBytes_length (st : ScriptStep) : st.toBytes.length = 16 := rfl

/-- Reading the image of an entry gives the entry, whatever follows (30_encoding.md R72). -/
@[simp] theorem Entry.ofBytes_toBytes (e : Entry) (rest : List Byte) : Entry.ofBytes (e.toBytes ++ rest) = some e := by
  have ht : ((e.params.toList ++ [0#8, 0#8, 0#8]) ++ rest).take 64 = e.params.toList := by
    rw [List.append_assoc, List.take_left' (by simp)]
  simp only [Entry.toBytes, u32Bytes, List.cons_append, List.nil_append, Entry.ofBytes, ht, le32_extract,
    paramsOf_params]
  exact if_pos (by simp; omega)

/-- Reading the image of a script step gives the step, whatever follows (30_encoding.md R75). -/
@[simp] theorem ScriptStep.ofBytes_toBytes (st : ScriptStep) (rest : List Byte) :
    ScriptStep.ofBytes (st.toBytes ++ rest) = some st := by
  simp [ScriptStep.toBytes, u32Bytes, ScriptStep.ofBytes]

/-- The two bytes of a command word give it back. -/
@[simp] theorem cmdOfBytes_cmdBytes (h : CmdWord) (rest : List Byte) : cmdOfBytes (cmdBytes h ++ rest) = some h := by
  simp only [cmdBytes, List.cons_append, List.nil_append, cmdOfBytes, Option.some.injEq]
  apply BitVec.eq_of_getLsbD_eq
  intro i hi
  rw [BitVec.getLsbD_append, BitVec.getLsbD_extractLsb', BitVec.getLsbD_extractLsb']
  by_cases h0 : i < 8
  · simp [h0]
  · simp [h0, show i - 8 < 8 by omega, show 8 + (i - 8) = i by omega]

@[simp] theorem cmdCode_configureWord (c : CapBits) : cmdCode (configureWord c) = 1 := by
  apply BitVec.eq_of_getLsbD_eq
  intro i hi
  rw [cmdCode, configureWord, BitVec.getLsbD_extractLsb', BitVec.getLsbD_append]
  simp [hi]

@[simp] theorem cmdCaps_configureWord (c : CapBits) : cmdCaps (configureWord c) = c := by
  apply BitVec.eq_of_getLsbD_eq
  intro i hi
  rw [cmdCaps, configureWord, BitVec.getLsbD_extractLsb', BitVec.getLsbD_append, BitVec.getLsbD_append]
  simp [hi, show ¬ 8 + i < 8 by omega]

/-- The command code as a number. -/
theorem cmdCode_toNat (h : CmdWord) : (cmdCode h).toNat = h.toNat % 256 := by simp [cmdCode]

/-- The capability payload as a number. -/
theorem cmdCaps_eq (h : CmdWord) : cmdCaps h = BitVec.ofNat 7 (h.toNat / 256) := by
  apply BitVec.eq_of_toNat_eq
  simp [cmdCaps, Nat.shiftRight_eq_div_pow]

@[simp] theorem bitU32_le (b : Bool) : (bitU32 b).toNat ≤ 1 := by cases b <;> decide

@[simp] theorem bitU32_bit (b : Bool) : (bitU32 b)[0] = b := by cases b <;> rfl

/-! ## Entry kinds -/

/-- Every entry is of exactly one of the four kinds (30_encoding.md R73). -/
theorem decodeEntry_cases (ops : ReservedOps) (e : Entry) :
    (e.opcode = ops.delay ∧ decodeEntry ops e = .delay e.count) ∨
      (e.opcode ≠ ops.delay ∧ e.opcode = ops.udelay ∧ decodeEntry ops e = .udelay e.count) ∨
      (e.opcode ≠ ops.delay ∧ e.opcode ≠ ops.udelay ∧ e.opcode = ops.fin ∧ decodeEntry ops e = .endMark) ∨
      (e.opcode ≠ ops.delay ∧ e.opcode ≠ ops.udelay ∧ e.opcode ≠ ops.fin ∧
        decodeEntry ops e = .write e.opcode e.count e.sent) := by
  unfold decodeEntry
  by_cases h1 : e.opcode = ops.delay
  · exact .inl ⟨h1, by rw [if_pos h1]⟩
  · by_cases h2 : e.opcode = ops.udelay
    · exact .inr (.inl ⟨h1, h2, by rw [if_neg h1, if_pos h2]⟩)
    · by_cases h3 : e.opcode = ops.fin
      · exact .inr (.inr (.inl ⟨h1, h2, h3, by rw [if_neg h1, if_neg h2, if_pos h3]⟩))
      · exact .inr (.inr (.inr ⟨h1, h2, h3, by rw [if_neg h1, if_neg h2, if_neg h3]⟩))

/-- An entry passes WF1 exactly when it is no oversized WRITE. -/
theorem entryFits_iff (ops : ReservedOps) (e : Entry) :
    entryFits ops e = true ↔
      (e.opcode ≠ ops.delay → e.opcode ≠ ops.udelay → e.opcode ≠ ops.fin → e.count.toNat ≤ 64) := by
  unfold entryFits
  obtain ⟨h, he⟩ | ⟨h, h', he⟩ | ⟨h, h', h'', he⟩ | ⟨h, h', h'', he⟩ := decodeEntry_cases ops e <;> rw [he]
  · simp [h]
  · simp [h']
  · simp [h'']
  · simp [h, h', h'']

/-- A script step passes WF4 exactly when it decodes. -/
theorem stepFits_decodes (st : ScriptStep) : stepFits st = true → ∃ i, decodeStep st = .ok i := by
  intro h
  simp only [stepFits, Bool.and_eq_true, Bool.or_eq_true, decide_eq_true_eq] at h
  obtain ⟨hk, ha⟩ := h
  unfold decodeStep
  by_cases h0 : st.kind = 0
  · have : st.a.toNat ≤ 1 := ha.resolve_left (by simp [h0])
    exact ⟨_, by rw [if_pos h0, if_pos this]⟩
  · by_cases h1 : st.kind = 1
    · have : st.a.toNat ≤ 1 := ha.resolve_left (by simp [h1])
      exact ⟨_, by rw [if_neg h0, if_pos h1, if_pos this]⟩
    · by_cases h2 : st.kind = 2
      · exact ⟨_, by rw [if_neg h0, if_neg h1, if_pos h2]⟩
      · by_cases h3 : st.kind = 3
        · exact ⟨_, by rw [if_neg h0, if_neg h1, if_neg h2, if_pos h3]⟩
        · exfalso
          have e0 : st.kind.toNat ≠ 0 := fun e => h0 (BitVec.eq_of_toNat_eq e)
          have e1 : st.kind.toNat ≠ 1 := fun e => h1 (BitVec.eq_of_toNat_eq e)
          have e2 : st.kind.toNat ≠ 2 := fun e => h2 (BitVec.eq_of_toNat_eq e)
          have e3 : st.kind.toNat ≠ 3 := fun e => h3 (BitVec.eq_of_toNat_eq e)
          omega

/-- A script step that decodes makes exactly one request (41_power_script.md R131 to R134). -/
theorem stepRequest_of_fits {st : ScriptStep} (h : stepFits st = true) : ∃ p, stepRequest st = some p := by
  obtain ⟨i, hi⟩ := stepFits_decodes st h
  have : ∃ p, requestOf false i = some p := by
    unfold decodeStep at hi
    repeat' split at hi
    all_goals first | (cases hi; exact ⟨_, rfl⟩) | cases hi
  obtain ⟨p, hp⟩ := this
  exact ⟨p, by simp [stepRequest, hi, hp]⟩

end Sys2Proof
end

