-- ==== Sys2Proof/Laws/Descriptor.lean ====
section
/-! SUPPORT. What the completed liveness table holds at each place. -/

namespace Sys2Proof.Machine

@[simp] theorem livenessTable_length (m slots n : Nat) (l : List LivenessSpec) :
    (livenessTable m slots n l).length = slots := by
  induction slots generalizing n l with
  | zero => rfl
  | succ slots ih =>
    unfold livenessTable
    split <;> simp_all

/-- Place `i` holds the panel model's entry `i` completed, when `i` is below the count and the model gives one; else
an entry of zeros (20_memory.md R54). -/
theorem livenessTable_getElem (m slots n : Nat) (l : List LivenessSpec) (i : Nat) (hi : i < slots) :
    (livenessTable m slots n l)[i]? =
      some (if h : i < n ∧ i < l.length then fillLiveness m l[i] else zeroLiveness m) := by
  induction slots generalizing n l i with
  | zero => omega
  | succ slots ih =>
    match n, l with
    | 0, l =>
      cases i with
      | zero => simp [livenessTable]
      | succ i => rw [livenessTable, List.getElem?_cons_succ, ih _ _ _ (by omega)]; simp; simp
    | n + 1, [] =>
      cases i with
      | zero => simp [livenessTable]
      | succ i => rw [livenessTable, List.getElem?_cons_succ, ih _ _ _ (by omega)]; simp; simp
    | n + 1, e :: es =>
      cases i with
      | zero => simp [livenessTable]
      | succ i => rw [livenessTable, List.getElem?_cons_succ, ih _ _ _ (by omega)]; simp

end Sys2Proof.Machine
end

