-- ==== Sys2Proof/Laws/State.lean ====
section
/-! SUPPORT. One lemma per field per state update: what each shared update makes of each register. -/

namespace Sys2Proof.Machine

variable (s : State)

@[simp] theorem logEvent_lstate (e : Event) : (logEvent e s).lstate = s.lstate := rfl
@[simp] theorem logEvent_phase (e : Event) : (logEvent e s).phase = s.phase := rfl
@[simp] theorem logEvent_curOp (e : Event) : (logEvent e s).curOp = s.curOp := rfl
@[simp] theorem logEvent_capValid (e : Event) : (logEvent e s).capValid = s.capValid := rfl
@[simp] theorem logEvent_caps (e : Event) : (logEvent e s).caps = s.caps := rfl
@[simp] theorem logEvent_idx (e : Event) : (logEvent e s).idx = s.idx := rfl
@[simp] theorem logEvent_count (e : Event) : (logEvent e s).count = s.count := rfl
@[simp] theorem logEvent_tsel (e : Event) : (logEvent e s).tsel = s.tsel := rfl
@[simp] theorem logEvent_force (e : Event) : (logEvent e s).force = s.force := rfl
@[simp] theorem logEvent_sidx (e : Event) : (logEvent e s).sidx = s.sidx := rfl
@[simp] theorem logEvent_pend (e : Event) : (logEvent e s).pend = s.pend := rfl
@[simp] theorem logEvent_req (e : Event) : (logEvent e s).req = s.req := rfl
@[simp] theorem logEvent_status (e : Event) : (logEvent e s).status = s.status := rfl
@[simp] theorem logEvent_fault (e : Event) : (logEvent e s).fault = s.fault := rfl
@[simp] theorem logEvent_faultCode (e : Event) : (logEvent e s).faultCode = s.faultCode := rfl
@[simp] theorem logEvent_faultInfo (e : Event) : (logEvent e s).faultInfo = s.faultInfo := rfl
@[simp] theorem logEvent_trace (e : Event) : (logEvent e s).trace = s.trace ++ [e] := rfl
@[simp] theorem logEvent_cfg (e : Event) : (logEvent e s).cfg = s.cfg := rfl
@[simp] theorem logEvent_inputs (e : Event) : (logEvent e s).inputs = s.inputs := rfl

@[simp] theorem respond_lstate (st : Byte) (d : Option Descriptor) : (respond st d s).lstate = s.lstate := rfl
@[simp] theorem respond_phase (st : Byte) (d : Option Descriptor) : (respond st d s).phase = s.phase := rfl
@[simp] theorem respond_curOp (st : Byte) (d : Option Descriptor) : (respond st d s).curOp = 0 := rfl
@[simp] theorem respond_capValid (st : Byte) (d : Option Descriptor) : (respond st d s).capValid = s.capValid := rfl
@[simp] theorem respond_caps (st : Byte) (d : Option Descriptor) : (respond st d s).caps = s.caps := rfl
@[simp] theorem respond_idx (st : Byte) (d : Option Descriptor) : (respond st d s).idx = s.idx := rfl
@[simp] theorem respond_count (st : Byte) (d : Option Descriptor) : (respond st d s).count = s.count := rfl
@[simp] theorem respond_tsel (st : Byte) (d : Option Descriptor) : (respond st d s).tsel = s.tsel := rfl
@[simp] theorem respond_force (st : Byte) (d : Option Descriptor) : (respond st d s).force = s.force := rfl
@[simp] theorem respond_sidx (st : Byte) (d : Option Descriptor) : (respond st d s).sidx = s.sidx := rfl
@[simp] theorem respond_pend (st : Byte) (d : Option Descriptor) : (respond st d s).pend = s.pend := rfl
@[simp] theorem respond_req (st : Byte) (d : Option Descriptor) : (respond st d s).req = s.req := rfl
@[simp] theorem respond_status (st : Byte) (d : Option Descriptor) : (respond st d s).status = st := rfl
@[simp] theorem respond_fault (st : Byte) (d : Option Descriptor) : (respond st d s).fault = s.fault := rfl
@[simp] theorem respond_faultCode (st : Byte) (d : Option Descriptor) : (respond st d s).faultCode = s.faultCode := rfl
@[simp] theorem respond_faultInfo (st : Byte) (d : Option Descriptor) : (respond st d s).faultInfo = s.faultInfo := rfl
@[simp] theorem respond_trace (st : Byte) (d : Option Descriptor) : (respond st d s).trace = s.trace ++ [.rsp st d] := rfl
@[simp] theorem respond_cfg (st : Byte) (d : Option Descriptor) : (respond st d s).cfg = s.cfg := rfl
@[simp] theorem respond_inputs (st : Byte) (d : Option Descriptor) : (respond st d s).inputs = s.inputs := rfl

@[simp] theorem reject_lstate (st : Byte) (ph : Phase) : (reject st ph s).lstate = s.lstate := rfl
@[simp] theorem reject_phase (st : Byte) (ph : Phase) : (reject st ph s).phase = ph := rfl
@[simp] theorem reject_curOp (st : Byte) (ph : Phase) : (reject st ph s).curOp = 0 := rfl
@[simp] theorem reject_capValid (st : Byte) (ph : Phase) : (reject st ph s).capValid = s.capValid := rfl
@[simp] theorem reject_caps (st : Byte) (ph : Phase) : (reject st ph s).caps = s.caps := rfl
@[simp] theorem reject_idx (st : Byte) (ph : Phase) : (reject st ph s).idx = s.idx := rfl
@[simp] theorem reject_count (st : Byte) (ph : Phase) : (reject st ph s).count = s.count := rfl
@[simp] theorem reject_tsel (st : Byte) (ph : Phase) : (reject st ph s).tsel = s.tsel := rfl
@[simp] theorem reject_force (st : Byte) (ph : Phase) : (reject st ph s).force = s.force := rfl
@[simp] theorem reject_sidx (st : Byte) (ph : Phase) : (reject st ph s).sidx = s.sidx := rfl
@[simp] theorem reject_pend (st : Byte) (ph : Phase) : (reject st ph s).pend = s.pend := rfl
@[simp] theorem reject_req (st : Byte) (ph : Phase) : (reject st ph s).req = s.req := rfl
@[simp] theorem reject_status (st : Byte) (ph : Phase) : (reject st ph s).status = st := rfl
@[simp] theorem reject_fault (st : Byte) (ph : Phase) : (reject st ph s).fault = s.fault := rfl
@[simp] theorem reject_faultCode (st : Byte) (ph : Phase) : (reject st ph s).faultCode = s.faultCode := rfl
@[simp] theorem reject_faultInfo (st : Byte) (ph : Phase) : (reject st ph s).faultInfo = s.faultInfo := rfl
@[simp] theorem reject_trace (st : Byte) (ph : Phase) : (reject st ph s).trace = s.trace ++ [.rsp st none] := rfl
@[simp] theorem reject_cfg (st : Byte) (ph : Phase) : (reject st ph s).cfg = s.cfg := rfl
@[simp] theorem reject_inputs (st : Byte) (ph : Phase) : (reject st ph s).inputs = s.inputs := rfl

@[simp] theorem takeFault_lstate (i : FaultInfo) : (takeFault i s).lstate = s.lstate := rfl
@[simp] theorem takeFault_phase (i : FaultInfo) : (takeFault i s).phase = .faulted := rfl
@[simp] theorem takeFault_curOp (i : FaultInfo) : (takeFault i s).curOp = 0 := rfl
@[simp] theorem takeFault_capValid (i : FaultInfo) : (takeFault i s).capValid = s.capValid := rfl
@[simp] theorem takeFault_caps (i : FaultInfo) : (takeFault i s).caps = s.caps := rfl
@[simp] theorem takeFault_idx (i : FaultInfo) : (takeFault i s).idx = s.idx := rfl
@[simp] theorem takeFault_count (i : FaultInfo) : (takeFault i s).count = s.count := rfl
@[simp] theorem takeFault_tsel (i : FaultInfo) : (takeFault i s).tsel = s.tsel := rfl
@[simp] theorem takeFault_force (i : FaultInfo) : (takeFault i s).force = s.force := rfl
@[simp] theorem takeFault_sidx (i : FaultInfo) : (takeFault i s).sidx = s.sidx := rfl
@[simp] theorem takeFault_pend (i : FaultInfo) : (takeFault i s).pend = s.pend := rfl
@[simp] theorem takeFault_req (i : FaultInfo) : (takeFault i s).req = s.req := rfl
@[simp] theorem takeFault_status (i : FaultInfo) : (takeFault i s).status = stFaultMissingCap := rfl
@[simp] theorem takeFault_fault (i : FaultInfo) : (takeFault i s).fault = true := rfl
@[simp] theorem takeFault_faultCode (i : FaultInfo) : (takeFault i s).faultCode = fltMissingCap := rfl
@[simp] theorem takeFault_faultInfo (i : FaultInfo) : (takeFault i s).faultInfo = i := rfl
@[simp] theorem takeFault_trace (i : FaultInfo) : (takeFault i s).trace = s.trace ++ [.rsp stFaultMissingCap none] := rfl
@[simp] theorem takeFault_cfg (i : FaultInfo) : (takeFault i s).cfg = s.cfg := rfl
@[simp] theorem takeFault_inputs (i : FaultInfo) : (takeFault i s).inputs = s.inputs := rfl

@[simp] theorem putRequest_lstate (p : Request) : (putRequest p s).lstate = s.lstate := rfl
@[simp] theorem putRequest_phase (p : Request) : (putRequest p s).phase = s.phase := rfl
@[simp] theorem putRequest_curOp (p : Request) : (putRequest p s).curOp = s.curOp := rfl
@[simp] theorem putRequest_capValid (p : Request) : (putRequest p s).capValid = s.capValid := rfl
@[simp] theorem putRequest_caps (p : Request) : (putRequest p s).caps = s.caps := rfl
@[simp] theorem putRequest_idx (p : Request) : (putRequest p s).idx = s.idx := rfl
@[simp] theorem putRequest_count (p : Request) : (putRequest p s).count = s.count := rfl
@[simp] theorem putRequest_tsel (p : Request) : (putRequest p s).tsel = s.tsel := rfl
@[simp] theorem putRequest_force (p : Request) : (putRequest p s).force = s.force := rfl
@[simp] theorem putRequest_sidx (p : Request) : (putRequest p s).sidx = s.sidx := rfl
@[simp] theorem putRequest_pend (p : Request) : (putRequest p s).pend = true := rfl
@[simp] theorem putRequest_req (p : Request) : (putRequest p s).req = p := rfl
@[simp] theorem putRequest_status (p : Request) : (putRequest p s).status = s.status := rfl
@[simp] theorem putRequest_fault (p : Request) : (putRequest p s).fault = s.fault := rfl
@[simp] theorem putRequest_faultCode (p : Request) : (putRequest p s).faultCode = s.faultCode := rfl
@[simp] theorem putRequest_faultInfo (p : Request) : (putRequest p s).faultInfo = s.faultInfo := rfl
@[simp] theorem putRequest_trace (p : Request) : (putRequest p s).trace = s.trace ++ [.req p] := rfl
@[simp] theorem putRequest_cfg (p : Request) : (putRequest p s).cfg = s.cfg := rfl
@[simp] theorem putRequest_inputs (p : Request) : (putRequest p s).inputs = s.inputs := rfl

@[simp] theorem advanceIdx_lstate : (advanceIdx s).lstate = s.lstate := rfl
@[simp] theorem advanceIdx_phase : (advanceIdx s).phase = s.phase := rfl
@[simp] theorem advanceIdx_curOp : (advanceIdx s).curOp = s.curOp := rfl
@[simp] theorem advanceIdx_capValid : (advanceIdx s).capValid = s.capValid := rfl
@[simp] theorem advanceIdx_caps : (advanceIdx s).caps = s.caps := rfl
@[simp] theorem advanceIdx_idx : (advanceIdx s).idx = s.idx + 1 := rfl
@[simp] theorem advanceIdx_count : (advanceIdx s).count = s.count := rfl
@[simp] theorem advanceIdx_tsel : (advanceIdx s).tsel = s.tsel := rfl
@[simp] theorem advanceIdx_force : (advanceIdx s).force = s.force := rfl
@[simp] theorem advanceIdx_sidx : (advanceIdx s).sidx = s.sidx := rfl
@[simp] theorem advanceIdx_pend : (advanceIdx s).pend = s.pend := rfl
@[simp] theorem advanceIdx_req : (advanceIdx s).req = s.req := rfl
@[simp] theorem advanceIdx_status : (advanceIdx s).status = s.status := rfl
@[simp] theorem advanceIdx_fault : (advanceIdx s).fault = s.fault := rfl
@[simp] theorem advanceIdx_faultCode : (advanceIdx s).faultCode = s.faultCode := rfl
@[simp] theorem advanceIdx_faultInfo : (advanceIdx s).faultInfo = s.faultInfo := rfl
@[simp] theorem advanceIdx_trace : (advanceIdx s).trace = s.trace := rfl
@[simp] theorem advanceIdx_cfg : (advanceIdx s).cfg = s.cfg := rfl
@[simp] theorem advanceIdx_inputs : (advanceIdx s).inputs = s.inputs := rfl

@[simp] theorem advanceSidx_lstate : (advanceSidx s).lstate = s.lstate := rfl
@[simp] theorem advanceSidx_phase : (advanceSidx s).phase = s.phase := rfl
@[simp] theorem advanceSidx_curOp : (advanceSidx s).curOp = s.curOp := rfl
@[simp] theorem advanceSidx_capValid : (advanceSidx s).capValid = s.capValid := rfl
@[simp] theorem advanceSidx_caps : (advanceSidx s).caps = s.caps := rfl
@[simp] theorem advanceSidx_idx : (advanceSidx s).idx = s.idx := rfl
@[simp] theorem advanceSidx_count : (advanceSidx s).count = s.count := rfl
@[simp] theorem advanceSidx_tsel : (advanceSidx s).tsel = s.tsel := rfl
@[simp] theorem advanceSidx_force : (advanceSidx s).force = s.force := rfl
@[simp] theorem advanceSidx_sidx : (advanceSidx s).sidx = s.sidx + 1 := rfl
@[simp] theorem advanceSidx_pend : (advanceSidx s).pend = s.pend := rfl
@[simp] theorem advanceSidx_req : (advanceSidx s).req = s.req := rfl
@[simp] theorem advanceSidx_status : (advanceSidx s).status = s.status := rfl
@[simp] theorem advanceSidx_fault : (advanceSidx s).fault = s.fault := rfl
@[simp] theorem advanceSidx_faultCode : (advanceSidx s).faultCode = s.faultCode := rfl
@[simp] theorem advanceSidx_faultInfo : (advanceSidx s).faultInfo = s.faultInfo := rfl
@[simp] theorem advanceSidx_trace : (advanceSidx s).trace = s.trace := rfl
@[simp] theorem advanceSidx_cfg : (advanceSidx s).cfg = s.cfg := rfl
@[simp] theorem advanceSidx_inputs : (advanceSidx s).inputs = s.inputs := rfl

@[simp] theorem startPush_lstate (tb : Table) (n : U32) (f : Bool) : (startPush tb n f s).lstate = s.lstate := rfl
@[simp] theorem startPush_phase (tb : Table) (n : U32) (f : Bool) : (startPush tb n f s).phase = tb.pushPhase := rfl
@[simp] theorem startPush_curOp (tb : Table) (n : U32) (f : Bool) : (startPush tb n f s).curOp = s.curOp := rfl
@[simp] theorem startPush_capValid (tb : Table) (n : U32) (f : Bool) : (startPush tb n f s).capValid = s.capValid := rfl
@[simp] theorem startPush_caps (tb : Table) (n : U32) (f : Bool) : (startPush tb n f s).caps = s.caps := rfl
@[simp] theorem startPush_idx (tb : Table) (n : U32) (f : Bool) : (startPush tb n f s).idx = 0 := rfl
@[simp] theorem startPush_count (tb : Table) (n : U32) (f : Bool) : (startPush tb n f s).count = n := rfl
@[simp] theorem startPush_tsel (tb : Table) (n : U32) (f : Bool) : (startPush tb n f s).tsel = tb := rfl
@[simp] theorem startPush_force (tb : Table) (n : U32) (f : Bool) : (startPush tb n f s).force = f := rfl
@[simp] theorem startPush_sidx (tb : Table) (n : U32) (f : Bool) : (startPush tb n f s).sidx = s.sidx := rfl
@[simp] theorem startPush_pend (tb : Table) (n : U32) (f : Bool) : (startPush tb n f s).pend = s.pend := rfl
@[simp] theorem startPush_req (tb : Table) (n : U32) (f : Bool) : (startPush tb n f s).req = s.req := rfl
@[simp] theorem startPush_status (tb : Table) (n : U32) (f : Bool) : (startPush tb n f s).status = s.status := rfl
@[simp] theorem startPush_fault (tb : Table) (n : U32) (f : Bool) : (startPush tb n f s).fault = s.fault := rfl
@[simp] theorem startPush_faultCode (tb : Table) (n : U32) (f : Bool) : (startPush tb n f s).faultCode = s.faultCode := rfl
@[simp] theorem startPush_faultInfo (tb : Table) (n : U32) (f : Bool) : (startPush tb n f s).faultInfo = s.faultInfo := rfl
@[simp] theorem startPush_trace (tb : Table) (n : U32) (f : Bool) : (startPush tb n f s).trace = s.trace := rfl
@[simp] theorem startPush_cfg (tb : Table) (n : U32) (f : Bool) : (startPush tb n f s).cfg = s.cfg := rfl
@[simp] theorem startPush_inputs (tb : Table) (n : U32) (f : Bool) : (startPush tb n f s).inputs = s.inputs := rfl

@[simp] theorem startScript_lstate (ph : Phase) : (startScript ph s).lstate = s.lstate := rfl
@[simp] theorem startScript_phase (ph : Phase) : (startScript ph s).phase = ph := rfl
@[simp] theorem startScript_curOp (ph : Phase) : (startScript ph s).curOp = s.curOp := rfl
@[simp] theorem startScript_capValid (ph : Phase) : (startScript ph s).capValid = s.capValid := rfl
@[simp] theorem startScript_caps (ph : Phase) : (startScript ph s).caps = s.caps := rfl
@[simp] theorem startScript_idx (ph : Phase) : (startScript ph s).idx = s.idx := rfl
@[simp] theorem startScript_count (ph : Phase) : (startScript ph s).count = s.count := rfl
@[simp] theorem startScript_tsel (ph : Phase) : (startScript ph s).tsel = s.tsel := rfl
@[simp] theorem startScript_force (ph : Phase) : (startScript ph s).force = s.force := rfl
@[simp] theorem startScript_sidx (ph : Phase) : (startScript ph s).sidx = 0 := rfl
@[simp] theorem startScript_pend (ph : Phase) : (startScript ph s).pend = s.pend := rfl
@[simp] theorem startScript_req (ph : Phase) : (startScript ph s).req = s.req := rfl
@[simp] theorem startScript_status (ph : Phase) : (startScript ph s).status = s.status := rfl
@[simp] theorem startScript_fault (ph : Phase) : (startScript ph s).fault = s.fault := rfl
@[simp] theorem startScript_faultCode (ph : Phase) : (startScript ph s).faultCode = s.faultCode := rfl
@[simp] theorem startScript_faultInfo (ph : Phase) : (startScript ph s).faultInfo = s.faultInfo := rfl
@[simp] theorem startScript_trace (ph : Phase) : (startScript ph s).trace = s.trace := rfl
@[simp] theorem startScript_cfg (ph : Phase) : (startScript ph s).cfg = s.cfg := rfl
@[simp] theorem startScript_inputs (ph : Phase) : (startScript ph s).inputs = s.inputs := rfl

@[simp] theorem complete_lstate (l : LState) : (complete l s).lstate = l := rfl
@[simp] theorem complete_phase (l : LState) : (complete l s).phase = .idle := rfl
@[simp] theorem complete_curOp (l : LState) : (complete l s).curOp = 0 := rfl
@[simp] theorem complete_capValid (l : LState) : (complete l s).capValid = s.capValid := rfl
@[simp] theorem complete_caps (l : LState) : (complete l s).caps = s.caps := rfl
@[simp] theorem complete_idx (l : LState) : (complete l s).idx = s.idx := rfl
@[simp] theorem complete_count (l : LState) : (complete l s).count = s.count := rfl
@[simp] theorem complete_tsel (l : LState) : (complete l s).tsel = s.tsel := rfl
@[simp] theorem complete_force (l : LState) : (complete l s).force = s.force := rfl
@[simp] theorem complete_sidx (l : LState) : (complete l s).sidx = s.sidx := rfl
@[simp] theorem complete_pend (l : LState) : (complete l s).pend = s.pend := rfl
@[simp] theorem complete_req (l : LState) : (complete l s).req = s.req := rfl
@[simp] theorem complete_status (l : LState) : (complete l s).status = stOk := rfl
@[simp] theorem complete_fault (l : LState) : (complete l s).fault = s.fault := rfl
@[simp] theorem complete_faultCode (l : LState) : (complete l s).faultCode = s.faultCode := rfl
@[simp] theorem complete_faultInfo (l : LState) : (complete l s).faultInfo = s.faultInfo := rfl
@[simp] theorem complete_trace (l : LState) : (complete l s).trace = s.trace ++ [.rsp stOk none] := rfl
@[simp] theorem complete_cfg (l : LState) : (complete l s).cfg = s.cfg := rfl
@[simp] theorem complete_inputs (l : LState) : (complete l s).inputs = s.inputs := rfl

@[simp] theorem envDone_lstate : (envDone s).lstate = s.lstate := rfl
@[simp] theorem envDone_phase : (envDone s).phase = s.phase := rfl
@[simp] theorem envDone_curOp : (envDone s).curOp = s.curOp := rfl
@[simp] theorem envDone_capValid : (envDone s).capValid = s.capValid := rfl
@[simp] theorem envDone_caps : (envDone s).caps = s.caps := rfl
@[simp] theorem envDone_idx : (envDone s).idx = s.idx := rfl
@[simp] theorem envDone_count : (envDone s).count = s.count := rfl
@[simp] theorem envDone_tsel : (envDone s).tsel = s.tsel := rfl
@[simp] theorem envDone_force : (envDone s).force = s.force := rfl
@[simp] theorem envDone_sidx : (envDone s).sidx = s.sidx := rfl
@[simp] theorem envDone_pend : (envDone s).pend = false := rfl
@[simp] theorem envDone_req : (envDone s).req = s.req := rfl
@[simp] theorem envDone_status : (envDone s).status = s.status := rfl
@[simp] theorem envDone_fault : (envDone s).fault = s.fault := rfl
@[simp] theorem envDone_faultCode : (envDone s).faultCode = s.faultCode := rfl
@[simp] theorem envDone_faultInfo : (envDone s).faultInfo = s.faultInfo := rfl
@[simp] theorem envDone_trace : (envDone s).trace = s.trace ++ [.done] := rfl
@[simp] theorem envDone_cfg : (envDone s).cfg = s.cfg := rfl
@[simp] theorem envDone_inputs : (envDone s).inputs = s.inputs := rfl

end Sys2Proof.Machine
end

