-- ==== Sys2Proof/Laws/Ops.lean ====
section
/-! SUPPORT. One lemma per shared operation that says everything it can do, and what each instruction's meaning answers. -/

namespace Sys2Proof.Machine

/-! ## Issue, the ends of pushes and scripts, reset -/

/-- `Issue` either puts the request and advances, or takes the fault. -/
theorem issue_cases (p : Request) (adv : State → State) (s : State) :
    (s.hasCap p = true ∧ issue p adv s = adv (putRequest p s)) ∨
      (s.hasCap p = false ∧ issue p adv s = takeFault (faultRecord p s) s) := by
  cases h : s.hasCap p <;> simp [issue, h]

theorem issue_present {p : Request} {s : State} (h : s.hasCap p = true) (adv : State → State) :
    issue p adv s = adv (putRequest p s) := by simp [issue, h]

theorem issue_missing {p : Request} {s : State} (h : s.hasCap p = false) (adv : State → State) :
    issue p adv s = takeFault (faultRecord p s) s := by simp [issue, h]

theorem pushDone_cases (s : State) :
    (s.tsel = .init ∧ pushDone s = complete .active s) ∨
      (s.tsel = .susp ∧ pushDone s = startScript .pwrDown s) := by
  cases h : s.tsel <;> simp [pushDone, h]

theorem scriptDone_cases (s : State) :
    (s.phase = .pwrUp ∧ scriptDone s = startPush .init s.cfg.initCount true s) ∨
      (s.phase ≠ .pwrUp ∧ scriptDone s = complete .suspended s) := by
  by_cases h : s.phase = .pwrUp <;> simp [scriptDone, h, initForce]

@[simp] theorem resetState_cfg (s : State) : (resetState s).cfg = s.cfg := rfl
@[simp] theorem resetState_inputs (s : State) : (resetState s).inputs = s.inputs := rfl

/-! ## Guards -/

theorem inPush_next {s t : State} {f : State → State} (h : inPush s f = .next t) : s.canPush = true ∧ t = f s := by
  unfold inPush at h
  split at h
  · exact ⟨‹_›, by cases h; rfl⟩
  · cases h

theorem inScript_next {s t : State} {f : State → State} (h : inScript s f = .next t) :
    s.canScript = true ∧ t = f s := by
  unfold inScript at h
  split at h
  · exact ⟨‹_›, by cases h; rfl⟩
  · cases h

theorem inAccept_next {s t : State} {f : State → State} (h : inAccept s f = .next t) :
    s.canAccept = true ∧ t = if s.phase = .faulted then reject stFaulted .faulted s else f s := by
  unfold inAccept at h
  split at h
  · exact ⟨‹_›, by cases h; rfl⟩
  · cases h

theorem canPush_iff {s : State} :
    s.canPush = true ↔ (s.phase = .pushInit ∨ s.phase = .pushSusp) ∧ s.pend = false := by
  cases h : s.phase <;> simp [State.canPush, Phase.isPush, h]

theorem canScript_iff {s : State} :
    s.canScript = true ↔ (s.phase = .pwrUp ∨ s.phase = .pwrDown) ∧ s.pend = false := by
  cases h : s.phase <;> simp [State.canScript, Phase.isScript, h]

theorem canAccept_iff {s : State} :
    s.canAccept = true ↔ (s.phase = .idle ∨ s.phase = .faulted) ∧ s.pend = false := by
  cases h : s.phase <;> simp [State.canAccept, State.cmdReady, h]

theorem isPush_iff {p : Phase} : p.isPush = true ↔ p = .pushInit ∨ p = .pushSusp := by
  cases p <;> simp [Phase.isPush]

theorem isScript_iff {p : Phase} : p.isScript = true ↔ p = .pwrUp ∨ p = .pwrDown := by
  cases p <;> simp [Phase.isScript]

theorem inPush_of_canPush {s : State} (h : s.canPush = true) (f : State → State) : inPush s f = .next (f s) := by
  simp [inPush, h]

theorem inScript_of_canScript {s : State} (h : s.canScript = true) (f : State → State) :
    inScript s f = .next (f s) := by
  simp [inScript, h]

/-! ## The requests of the entry kinds -/

/-- The product of a DELAY count and 1000 does not overflow (40_table_interpreter.md R105). -/
theorem zext32_mul_usPerMs (k : Byte) : zext32 k * usPerMs = BitVec.ofNat 32 (k.toNat * 1000) := by
  apply BitVec.eq_of_toNat_eq
  have := k.isLt
  simp [zext32, usPerMs, BitVec.toNat_mul, BitVec.toNat_setWidth]

theorem delayRequest_eq (k : Byte) :
    delayRequest k =
      if k.toNat ≤ 10 then .delayUs (BitVec.ofNat 32 (k.toNat * 1000)) else .delayMs (k.setWidth 32) := by
  rw [delayRequest, zext32_mul_usPerMs]
  rfl

/-! ## What the meanings answer -/

/-- A push-step body: the request issued, or only the advance. -/
def entryBody (o : Option Request) : State → State :=
  match o with
  | some p => issue p advanceIdx
  | none => advanceIdx

/-- Every entry kind is a push step that issues its request, if it has one, and advances. -/
theorem exec_entry {i : Instr} (h : i.format = .e) (s : State) :
    exec i s = inPush s (entryBody (requestOf s.force i)) := by
  cases i <;> simp [Instr.format] at h <;>
    simp [exec, execWrite, execDelay, execUdelay, execEnd, entryBody, requestOf, writeRequest, udelayRequest, zext32,
      delayRequest_eq]

/-- Every script step is a step that issues its request and advances. -/
theorem exec_script {i : Instr} (h : i.format = .s) (s : State) :
    ∃ p, requestOf false i = some p ∧ exec i s = inScript s (issue p advanceSidx) := by
  cases i <;> simp [Instr.format] at h <;>
    simp [exec, execSReset, execSBias, execSMdelay, execSUdelay, requestOf, resetRequest, biasRequest, mdelayRequest,
      sudelayRequest]

/-- What a host command does to a block that is `IDLE`, after its `cmd` event (42_lifecycle.md R152 to R157). -/
inductive Command (s : State) : Instr → State → Prop where
  | configure (c : CapBits) :
      Command s (.hConfigure c) { respond stOk none { s with caps := c, capValid := true } with phase := .idle }
  | describe : Command s .hDescribe { respond stOk (some (zeroFill s.cfg)) s with phase := .idle }
  | notConfigured (i : Instr) : s.capValid = false → i = .hInitialize ∨ i = .hSuspend ∨ i = .hResume →
      Command s i (reject stNotConfigured .idle s)
  | invalidTransition (i : Instr) : s.capValid = true → s.cfg.checkTransitions = true →
      (i = .hSuspend ∧ s.lstate ≠ .active) ∨ (i = .hResume ∧ s.lstate ≠ .suspended) →
      Command s i (reject stInvalidTransition .idle s)
  | powerUp (i : Instr) (o : BitVec 3) : s.capValid = true →
      (i = .hInitialize ∧ o = 3) ∨
        (i = .hResume ∧ o = 5 ∧ (s.cfg.checkTransitions = false ∨ s.lstate = .suspended)) →
      Command s i (startScript .pwrUp { s with curOp := o })
  | suspend : s.capValid = true → s.cfg.checkTransitions = false ∨ s.lstate = .active →
      Command s .hSuspend (startPush .susp s.cfg.suspCount s.cfg.suspForce { s with curOp := 4 })

/-- The checks of a busy command: not configured, illegal, or started. -/
theorem startBusy_cases (c : BusyCmd) (f : State → State) (s : State) :
    (s.capValid = false ∧ startBusy c f s = reject stNotConfigured .idle s) ∨
      (s.capValid = true ∧ s.cfg.checkTransitions = true ∧ legal c s.lstate = false ∧
        startBusy c f s = reject stInvalidTransition .idle s) ∨
      (s.capValid = true ∧ (s.cfg.checkTransitions = false ∨ legal c s.lstate = true) ∧
        startBusy c f s = f { s with curOp := c.code }) := by
  unfold startBusy
  cases s.capValid <;> cases s.cfg.checkTransitions <;> cases legal c s.lstate <;> simp

/-- An accepted command answers in the step, or starts its busy phase, as its rule says. -/
theorem command_start {s : State} {i : Instr} (c : BusyCmd) (f : State → State)
    (hi : i = .hInitialize ∨ i = .hSuspend ∨ i = .hResume)
    (hill : legal c s.lstate = false →
      (i = .hSuspend ∧ s.lstate ≠ .active) ∨ (i = .hResume ∧ s.lstate ≠ .suspended))
    (hgo : s.capValid = true → (s.cfg.checkTransitions = false ∨ legal c s.lstate = true) →
      Command s i (f { s with curOp := c.code })) :
    Command s i (startBusy c f s) := by
  obtain ⟨hv, he⟩ | ⟨hv, hc, hl, he⟩ | ⟨hv, hl, he⟩ := startBusy_cases c f s
  · rw [he]; exact .notConfigured i hv hi
  · rw [he]; exact .invalidTransition i hv hc (hill hl)
  · rw [he]; exact hgo hv hl

theorem exec_command {i : Instr} (h : i.format = .h) {s t : State} (ht : exec i s = .next t) :
    s.canAccept = true ∧
      ((s.phase = .faulted ∧ t = reject stFaulted .faulted s) ∨ (s.phase = .idle ∧ Command s i t)) := by
  have key : ∀ f, inAccept s f = .next t → Command s i (f s) →
      s.canAccept = true ∧
        ((s.phase = .faulted ∧ t = reject stFaulted .faulted s) ∨ (s.phase = .idle ∧ Command s i t)) := by
    intro f hf hc
    obtain ⟨ha, rfl⟩ := inAccept_next hf
    refine ⟨ha, ?_⟩
    obtain ⟨hp, -⟩ := canAccept_iff.1 ha
    by_cases hq : s.phase = .faulted
    · exact .inl ⟨hq, by simp [hq]⟩
    · refine .inr ⟨hp.resolve_right hq, ?_⟩
      simpa [hq] using hc
  cases i with
  | hConfigure c =>
    exact key (fun s => { respond stOk none { s with caps := c, capValid := true } with phase := .idle }) ht
      (.configure c)
  | hDescribe =>
    exact key (fun s => { respond stOk (some (zeroFill s.cfg)) s with phase := .idle }) ht .describe
  | hInitialize =>
    exact key (startBusy .initPanel (startScript .pwrUp)) ht
      (command_start _ _ (by simp) (by simp [legal]) (fun hv _ => .powerUp _ 3 hv (by simp)))
  | hSuspend =>
    exact key (startBusy .suspendPanel (fun s => startPush .susp s.cfg.suspCount s.cfg.suspForce s)) ht
      (command_start _ _ (by simp) (by simp [legal]) (fun hv hl => .suspend hv (by simpa [legal] using hl)))
  | hResume =>
    exact key (startBusy .resumePanel (startScript .pwrUp)) ht
      (command_start _ _ (by simp) (by simp [legal])
        (fun hv hl => .powerUp _ 5 hv (.inr ⟨rfl, rfl, by simpa [legal] using hl⟩)))
  | write => simp [Instr.format] at h
  | delay => simp [Instr.format] at h
  | udelay => simp [Instr.format] at h
  | endMark => simp [Instr.format] at h
  | sReset => simp [Instr.format] at h
  | sBias => simp [Instr.format] at h
  | sMdelay => simp [Instr.format] at h
  | sUdelay => simp [Instr.format] at h

/-! ## The block and the outside world -/

/-- An update that neither reads nor writes the outside world's moves. -/
def onBlock (f : State → State) : Prop :=
  ∀ (x : List Input) (s : State), f { s with inputs := x } = { f s with inputs := x }

theorem onBlock_inputs {f : State → State} (hf : onBlock f) (s : State) : (f s).inputs = s.inputs := by
  have h : f s = { f s with inputs := s.inputs } := hf s.inputs s
  rw [h]

theorem onBlock_issue (p : Request) {adv : State → State} (ha : onBlock adv) : onBlock (issue p adv) := by
  intro x s
  obtain ⟨hc, he⟩ | ⟨hc, he⟩ := issue_cases p adv s <;> rw [he]
  · rw [issue_present (show State.hasCap { s with inputs := x } p = true from hc)]
    exact ha x (putRequest p s)
  · rw [issue_missing (show State.hasCap { s with inputs := x } p = false from hc)]
    rfl

theorem onBlock_advanceIdx : onBlock advanceIdx := fun _ _ => rfl

theorem onBlock_advanceSidx : onBlock advanceSidx := fun _ _ => rfl

theorem onBlock_startBusy (c : BusyCmd) {f : State → State} (hf : onBlock f) : onBlock (startBusy c f) := by
  intro x s
  have hs := hf x { s with curOp := c.code }
  obtain ⟨hv, he⟩ | ⟨hv, hc, hl, he⟩ | ⟨hv, hl, he⟩ := startBusy_cases c f s <;> rw [he]
  · simp [startBusy, hv, reject, respond, logEvent]
  · simp [startBusy, hv, hc, hl, reject, respond, logEvent]
  · rw [← hs]
    obtain hl | hl := hl <;> simp [startBusy, hv, hl]

theorem onBlock_inPush {f : State → State} (hf : onBlock f) {s t : State} (x : List Input) (h : inPush s f = .next t) :
    inPush { s with inputs := x } f = .next { t with inputs := x } ∧ t.inputs = s.inputs := by
  obtain ⟨hc, rfl⟩ := inPush_next h
  exact ⟨by rw [inPush_of_canPush (s := { s with inputs := x }) hc, hf x s], onBlock_inputs hf s⟩

theorem onBlock_inScript {f : State → State} (hf : onBlock f) {s t : State} (x : List Input)
    (h : inScript s f = .next t) :
    inScript { s with inputs := x } f = .next { t with inputs := x } ∧ t.inputs = s.inputs := by
  obtain ⟨hc, rfl⟩ := inScript_next h
  exact ⟨by rw [inScript_of_canScript (s := { s with inputs := x }) hc, hf x s], onBlock_inputs hf s⟩

theorem onBlock_inAccept {f : State → State} (hf : onBlock f) {s t : State} (x : List Input)
    (h : inAccept s f = .next t) :
    inAccept { s with inputs := x } f = .next { t with inputs := x } ∧ t.inputs = s.inputs := by
  obtain ⟨hc, rfl⟩ := inAccept_next h
  unfold inAccept
  rw [if_pos (show State.canAccept { s with inputs := x } = true from hc)]
  by_cases hq : s.phase = .faulted
  · simp [hq, reject, respond, logEvent]
  · simp [hq, hf x s, onBlock_inputs hf s]

/-- The outside world's moves are no part of the block (10_state.md R21): what an instruction makes of the block does not
depend on them, and it leaves them as they are. -/
theorem exec_onBlock {i : Instr} {s t : State} (x : List Input) (h : exec i s = .next t) :
    exec i { s with inputs := x } = .next { t with inputs := x } ∧ t.inputs = s.inputs := by
  have hup : onBlock (startScript .pwrUp) := fun _ _ => rfl
  cases i with
  | write op k ps => exact onBlock_inPush (onBlock_issue (writeRequest op k ps s.force) onBlock_advanceIdx) x h
  | delay k => exact onBlock_inPush (onBlock_issue (delayRequest k) onBlock_advanceIdx) x h
  | udelay k => exact onBlock_inPush (onBlock_issue (udelayRequest k) onBlock_advanceIdx) x h
  | endMark => exact onBlock_inPush onBlock_advanceIdx x h
  | sReset l => exact onBlock_inScript (onBlock_issue (resetRequest l) onBlock_advanceSidx) x h
  | sBias e o v => exact onBlock_inScript (onBlock_issue (biasRequest e o v) onBlock_advanceSidx) x h
  | sMdelay n => exact onBlock_inScript (onBlock_issue (mdelayRequest n) onBlock_advanceSidx) x h
  | sUdelay n => exact onBlock_inScript (onBlock_issue (sudelayRequest n) onBlock_advanceSidx) x h
  | hConfigure c =>
    exact onBlock_inAccept
      (f := fun s => { respond stOk none { s with caps := c, capValid := true } with phase := .idle })
      (fun _ _ => rfl) x h
  | hDescribe =>
    exact onBlock_inAccept (f := fun s => { respond stOk (some (zeroFill s.cfg)) s with phase := .idle })
      (fun _ _ => rfl) x h
  | hInitialize => exact onBlock_inAccept (onBlock_startBusy .initPanel hup) x h
  | hSuspend =>
    exact onBlock_inAccept
      (onBlock_startBusy .suspendPanel (f := fun s => startPush .susp s.cfg.suspCount s.cfg.suspForce s)
        (fun _ _ => rfl)) x h
  | hResume => exact onBlock_inAccept (onBlock_startBusy .resumePanel hup) x h

end Sys2Proof.Machine
end

