-- ==== Sys2Proof/Laws/PerInstr.lean ====
section
/-! SUPPORT. Statements per instruction: the length of an instruction's record (30_encoding.md R82). -/

namespace Sys2Proof.Laws

/-- The encoding of the instruction has the length of its format, 72, 16 or 2 bytes (30_encoding.md R82). -/
def EncodeSize.Statement (i : Instr) : Prop := ∀ ops : ReservedOps, (encode ops i).length = i.format.size

theorem EncodeSize.write (op : U32) (k : Byte) (ps : List Byte) : EncodeSize.Statement (.write op k ps) := fun _ => Entry.toBytes_length _
theorem EncodeSize.delay (k : Byte) : EncodeSize.Statement (.delay k) := fun _ => Entry.toBytes_length _
theorem EncodeSize.udelay (k : Byte) : EncodeSize.Statement (.udelay k) := fun _ => Entry.toBytes_length _
theorem EncodeSize.endMark : EncodeSize.Statement (.endMark) := fun _ => Entry.toBytes_length _
theorem EncodeSize.sReset (l : Bool) : EncodeSize.Statement (.sReset l) := fun _ => rfl
theorem EncodeSize.sBias (e : Bool) (o v : U32) : EncodeSize.Statement (.sBias e o v) := fun _ => rfl
theorem EncodeSize.sMdelay (n : U32) : EncodeSize.Statement (.sMdelay n) := fun _ => rfl
theorem EncodeSize.sUdelay (n : U32) : EncodeSize.Statement (.sUdelay n) := fun _ => rfl
theorem EncodeSize.hConfigure (c : CapBits) : EncodeSize.Statement (.hConfigure c) := fun _ => rfl
theorem EncodeSize.hDescribe : EncodeSize.Statement (.hDescribe) := fun _ => rfl
theorem EncodeSize.hInitialize : EncodeSize.Statement (.hInitialize) := fun _ => rfl
theorem EncodeSize.hSuspend : EncodeSize.Statement (.hSuspend) := fun _ => rfl
theorem EncodeSize.hResume : EncodeSize.Statement (.hResume) := fun _ => rfl

end Sys2Proof.Laws
end

