-- ==== Sys2Proof/Laws/Safety.lean ====
section
/-! SUPPORT. Lemmas about the terms of Safety.lean: configurations that pass, reserved values, traces, sized requests, indices. -/

namespace Sys2Proof.Machine

/-- A configuration passes exactly when each of the six checks does (30_encoding.md R80). -/
theorem cfgCheck_none_iff {c : Cfg} :
    cfgCheck c = none ↔
      wf1 c = true ∧ wf2 c = true ∧ wf3 c = true ∧ wf4 c = true ∧ wf5 c = true ∧ wf6 c = true := by
  unfold cfgCheck
  cases wf1 c <;> cases wf2 c <;> cases wf3 c <;> cases wf4 c <;> cases wf5 c <;> cases wf6 c <;> decide

theorem wf2_distinct {c : Cfg} (h : cfgCheck c = none) : c.ops.distinct = true := (cfgCheck_none_iff.1 h).2.1

/-- Every entry of a checked configuration's tables fits the buffer. -/
theorem entryFits_of_read {c : Cfg} {t : Table} {n : Nat} {e : Entry} (h : cfgCheck c = none)
    (hr : tableRead c t n = some e) : entryFits c.ops e = true := by
  have hw := (cfgCheck_none_iff.1 h).1
  have hm := List.mem_of_getElem? hr
  simp only [wf1, Bool.and_eq_true, List.all_eq_true] at hw
  cases t
  · exact hw.1 e hm
  · exact hw.2 e hm

/-- Every step of a checked configuration's scripts fits. -/
theorem stepFits_of_read {s : State} {n : Nat} {st : ScriptStep} (h : cfgCheck s.cfg = none)
    (hr : scriptRead s n = some st) : stepFits st = true := by
  have hw := (cfgCheck_none_iff.1 h).2.2.2.1
  have hm := List.mem_of_getElem? hr
  simp only [wf4, Bool.and_eq_true, List.all_eq_true] at hw
  unfold State.script at hm
  split at hm
  · exact hw.1 st hm
  · exact hw.2 st hm

theorem script_length_lt {s : State} (h : cfgCheck s.cfg = none) : s.script.length < 2 ^ 32 := by
  have hw := (cfgCheck_none_iff.1 h).2.2.2.2.2
  simp only [wf6, maxLength, Bool.and_eq_true, decide_eq_true_eq] at hw
  unfold State.script
  split <;> omega

theorem reservedHeld_iff {s : State} :
    s.reservedHeld = false ↔
      s.lstate ≠ .reserved3 ∧ s.phase ≠ .reserved6 ∧ s.phase ≠ .reserved7 ∧ s.status ∈ statusCodes ∧
        s.faultCode ∈ faultCodes := by
  simp [State.reservedHeld, and_assoc]

@[simp] theorem exchangeOf_append (tr : List Event) (e : Event) :
    exchangeOf (tr ++ [e]) = (exchangeOf tr).bind (fun x => x.next e) := by simp [exchangeOf]

@[simp] theorem requestsOf_append (l m : List Event) : requestsOf (l ++ m) = requestsOf l ++ requestsOf m := by
  simp [requestsOf]

@[simp] theorem statusesOf_append (l m : List Event) : statusesOf (l ++ m) = statusesOf l ++ statusesOf m := by
  simp [statusesOf]

/-- The request of an entry that fits is sized (10_state.md R36). -/
theorem sized_of_entry {ops : ReservedOps} {e : Entry} {f : Bool} {p : Request} (h : entryFits ops e = true)
    (hp : requestOf f (decodeEntry ops e) = some p) : p.sized := by
  obtain ⟨-, he⟩ | ⟨-, -, he⟩ | ⟨-, -, -, he⟩ | ⟨h1, h2, h3, he⟩ := decodeEntry_cases ops e <;> rw [he] at hp <;>
    simp only [requestOf, Option.some.injEq] at hp
  · split at hp <;> subst hp <;> trivial
  · subst hp
    trivial
  · cases hp
  · subst hp
    have hk := (entryFits_iff ops e).1 h h1 h2 h3
    simp [Request.sized, Entry.sent, hk]

/-- The request of a script step is sized. -/
theorem sized_of_step {st : ScriptStep} {p : Request} (hp : stepRequest st = some p) : p.sized := by
  unfold stepRequest at hp
  split at hp
  · rename_i i hi
    have hf := hi
    unfold decodeStep at hf
    repeat' split at hf
    all_goals first | (cases hf; simp only [requestOf, Option.some.injEq] at hp; subst hp; trivial) | cases hf
  · cases hp

/-- An index below a u32 bound does not wrap (10_state.md R23). -/
theorem toNat_succ_of_lt {i n : U32} (h : i.toNat < n.toNat) : (i + 1).toNat = i.toNat + 1 := by
  have hn := n.isLt
  rw [BitVec.toNat_add, show (1 : U32).toNat = 1 from rfl, Nat.mod_eq_of_lt (by omega)]

/-- An index below a u32-countable length does not wrap (10_state.md R23). -/
theorem toNat_succ_of_lt_length {i : U32} {n : Nat} (h : i.toNat < n) (hn : n < 2 ^ 32) :
    (i + 1).toNat = i.toNat + 1 := by
  rw [BitVec.toNat_add, show (1 : U32).toNat = 1 from rfl, Nat.mod_eq_of_lt (by omega)]

@[simp] theorem kind_ofNat (p : Request) : (BitVec.ofNat 3 p.kind).toNat = p.kind := by cases p <;> rfl

end Sys2Proof.Machine
end

