-- ==== Sys2Proof/Laws/Step.lean ====
section
/-! SUPPORT. Everything a step can do: one inversion lemma for step, from which the whole-machine rules follow. -/

namespace Sys2Proof.Machine

theorem decodeEntry_format (ops : ReservedOps) (e : Entry) : (decodeEntry ops e).format = .e := by
  unfold decodeEntry
  split
  · rfl
  · split
    · rfl
    · split <;> rfl

theorem decodeStep_format {st : ScriptStep} {i : Instr} (h : decodeStep st = .ok i) : i.format = .s := by
  unfold decodeStep at h
  repeat' split at h
  all_goals first | (cases h; rfl) | cases h

theorem decodeCommand_format {h : CmdWord} {i : Instr} (hd : decodeCommand h = .ok i) : i.format = .h := by
  unfold decodeCommand at hd
  repeat' split at hd
  all_goals first | (cases hd; rfl) | cases hd

/-- What the block, or ENV, does in a step of its own (42_lifecycle.md R165): every case, with its guards. -/
inductive Own (s : State) : State → Prop where
  | done : s.pend = true → Own s (envDone s)
  | wait : s.pend = false → s.reservedHeld = false → s.phase = .idle ∨ s.phase = .faulted → Own s s
  | pushCompleted : s.canPush = true → s.reservedHeld = false → s.count.toNat ≤ s.idx.toNat → s.tsel = .init →
      Own s (complete .active s)
  | pushToScript : s.canPush = true → s.reservedHeld = false → s.count.toNat ≤ s.idx.toNat → s.tsel = .susp →
      Own s (startScript .pwrDown s)
  | entryIssued (e : Entry) (p : Request) : s.canPush = true → s.reservedHeld = false →
      s.idx.toNat < s.count.toNat → tableRead s.cfg s.tsel s.idx.toNat = some e →
      requestOf s.force (decodeEntry s.cfg.ops e) = some p → s.hasCap p = true → Own s (advanceIdx (putRequest p s))
  | entryFaulted (e : Entry) (p : Request) : s.canPush = true → s.reservedHeld = false →
      s.idx.toNat < s.count.toNat → tableRead s.cfg s.tsel s.idx.toNat = some e →
      requestOf s.force (decodeEntry s.cfg.ops e) = some p → s.hasCap p = false →
      Own s (takeFault (faultRecord p s) s)
  | entrySkipped (e : Entry) : s.canPush = true → s.reservedHeld = false →
      s.idx.toNat < s.count.toNat → tableRead s.cfg s.tsel s.idx.toNat = some e →
      requestOf s.force (decodeEntry s.cfg.ops e) = none → Own s (advanceIdx s)
  | scriptToPush : s.phase = .pwrUp → s.pend = false → s.reservedHeld = false →
      s.cfg.upScript.length ≤ s.sidx.toNat → Own s (startPush .init s.cfg.initCount true s)
  | scriptCompleted : s.phase = .pwrDown → s.pend = false → s.reservedHeld = false →
      s.cfg.downScript.length ≤ s.sidx.toNat → Own s (complete .suspended s)
  | stepIssued (st : ScriptStep) (p : Request) : s.canScript = true → s.reservedHeld = false →
      scriptRead s s.sidx.toNat = some st → stepRequest st = some p → s.hasCap p = true →
      Own s (advanceSidx (putRequest p s))
  | stepFaulted (st : ScriptStep) (p : Request) : s.canScript = true → s.reservedHeld = false →
      scriptRead s s.sidx.toNat = some st → stepRequest st = some p → s.hasCap p = false →
      Own s (takeFault (faultRecord p s) s)

/-- What an accept step does, after the `cmd` event (42_lifecycle.md R150, R152). -/
inductive Accept (s : State) (h : CmdWord) : State → Prop where
  | faulted : s.phase = .faulted → Accept s h (reject stFaulted .faulted (logEvent (.cmd h) s))
  | bad : s.phase = .idle → decodeCommand h = .error .badCommandCode →
      Accept s h (reject stBadCommand .idle (logEvent (.cmd h) s))
  | command (i : Instr) (t : State) : s.phase = .idle → decodeCommand h = .ok i → Command (logEvent (.cmd h) s) i t →
      Accept s h t

/-- What a step does, by the outside world's next move. -/
inductive Moves (s : State) : State → Prop where
  | reset (rest : List Input) : s.inputs = .reset :: rest → Moves s (resetState { s with inputs := rest })
  | stall (rest : List Input) : s.inputs = .stall :: rest → Moves s { s with inputs := rest }
  | accept (h : CmdWord) (rest : List Input) (t : State) : s.inputs = .command h :: rest → s.canAccept = true →
      s.reservedHeld = false → Accept { s with inputs := rest } h t → Moves s t
  | run (rest : List Input) (t : State) : s.inputs = .run :: rest → Own { s with inputs := rest } t → Moves s t
  | own (t : State) : s.inputs = [] ∨ (∃ h rest, s.inputs = .command h :: rest ∧ s.canAccept = false) → Own s t →
      Moves s t

theorem seqDoes_next {s t : State} {a : Host.Outcome State Fault Refusal} (h : seqDoes s a = .next t) :
    s.reservedHeld = false ∧ a = .next t := by
  unfold seqDoes at h
  cases hr : s.reservedHeld <;> simp [hr] at h
  exact ⟨rfl, h⟩

theorem pushStep_own {s t : State} (hr : s.reservedHeld = false) (hp : s.canPush = true) (h : pushStep s = .next t) :
    Own s t := by
  unfold pushStep at h
  split at h
  · rename_i hc
    cases h
    obtain ⟨ht, he⟩ | ⟨ht, he⟩ := pushDone_cases s <;> rw [he]
    · exact .pushCompleted hp hr hc ht
    · exact .pushToScript hp hr hc ht
  · split at h
    · cases h
    · rename_i hlt _ e he
      rw [exec_entry (decodeEntry_format _ _)] at h
      obtain ⟨-, rfl⟩ := inPush_next h
      cases hq : requestOf s.force (decodeEntry s.cfg.ops e) with
      | none => exact .entrySkipped e hp hr (by omega) he hq
      | some p =>
        simp only [entryBody]
        obtain ⟨hc, hi⟩ | ⟨hc, hi⟩ := issue_cases p advanceIdx s <;> rw [hi]
        · exact .entryIssued e p hp hr (by omega) he hq hc
        · exact .entryFaulted e p hp hr (by omega) he hq hc

theorem scriptStep_own {s t : State} (hr : s.reservedHeld = false) (hp : s.canScript = true)
    (h : scriptStep s = .next t) : Own s t := by
  unfold scriptStep at h
  split at h
  · rename_i hn
    cases h
    obtain ⟨hq, hpend⟩ := canScript_iff.1 hp
    rw [scriptRead, List.getElem?_eq_none_iff] at hn
    obtain ⟨ht, he⟩ | ⟨ht, he⟩ := scriptDone_cases s <;> rw [he]
    · exact .scriptToPush ht hpend hr (by simpa [State.script, ht] using hn)
    · have hd := hq.resolve_left ht
      exact .scriptCompleted hd hpend hr (by simpa [State.script, hd] using hn)
  · rename_i st hst
    split at h
    · cases h
    · rename_i i hi
      obtain ⟨p, hq, he⟩ := exec_script (decodeStep_format hi) s
      rw [he] at h
      obtain ⟨-, rfl⟩ := inScript_next h
      have hreq : stepRequest st = some p := by simp [stepRequest, hi, hq]
      obtain ⟨hc, hj⟩ | ⟨hc, hj⟩ := issue_cases p advanceSidx s <;> rw [hj]
      · exact .stepIssued st p hp hr hst hreq hc
      · exact .stepFaulted st p hp hr hst hreq hc

theorem ownStep_own {s t : State} (h : ownStep s = .next t) : Own s t := by
  unfold ownStep at h
  cases hp : s.pend
  · simp only [hp, Bool.false_eq_true, if_false] at h
    obtain ⟨hr, h⟩ := seqDoes_next h
    cases hq : s.phase <;> simp only [hq] at h
    · cases h
      exact .wait hp hr (.inl hq)
    · exact scriptStep_own hr (canScript_iff.2 (by simp [hq, hp])) h
    · exact pushStep_own hr (canPush_iff.2 (by simp [hq, hp])) h
    · exact pushStep_own hr (canPush_iff.2 (by simp [hq, hp])) h
    · exact scriptStep_own hr (canScript_iff.2 (by simp [hq, hp])) h
    · cases h
      exact .wait hp hr (.inr hq)
    · cases h
    · cases h
  · simp only [hp, if_true] at h
    cases h
    exact .done hp

theorem acceptStep_accept {s t : State} {h : CmdWord} (ht : acceptStep h s = .next t) : Accept s h t := by
  unfold acceptStep at ht
  split at ht
  · rename_i err hd
    have herr : err = .badCommandCode := by
      unfold decodeCommand at hd
      repeat' split at hd
      all_goals first | (cases hd; rfl) | cases hd
    subst herr
    obtain ⟨ha, rfl⟩ := inAccept_next ht
    obtain ⟨hp, -⟩ := canAccept_iff.1 ha
    by_cases hq : s.phase = .faulted
    · simpa [hq] using Accept.faulted (s := s) (h := h) hq
    · simpa [hq] using Accept.bad (s := s) (h := h) (hp.resolve_right hq) hd
  · rename_i i hd
    obtain ⟨-, ⟨hq, rfl⟩ | ⟨hq, hc⟩⟩ := exec_command (decodeCommand_format hd) ht
    · exact .faulted hq
    · exact .command i t hq hd hc

/-- THE INVERSION OF A STEP: if it answers a next state, the configuration passes every check and the step is one of
the moves. -/
theorem step_moves {s t : State} (h : step s = .next t) : cfgCheck s.cfg = none ∧ Moves s t := by
  unfold step checkedStep at h
  split at h
  · cases h
  · refine ⟨‹_›, ?_⟩
    unfold takeMove at h
    split at h
    · exact .own t (.inl ‹_›) (ownStep_own h)
    · exact .run _ t ‹_› (ownStep_own h)
    · cases h
      exact .stall _ ‹_›
    · cases h
      exact .reset _ ‹_›
    · split at h
      · obtain ⟨hr, h⟩ := seqDoes_next h
        exact .accept _ _ t ‹_› ‹_› hr (acceptStep_accept h)
      · rename_i hin hna
        exact .own t (.inr ⟨_, _, hin, Bool.eq_false_iff.2 hna⟩) (ownStep_own h)

/-! ## The events of a step -/

/-- A step of SEQ's push or script, or of ENV, appends at most one event (20_memory.md R56). -/
theorem own_appends {s t : State} (h : Own s t) : ∃ es, es.length ≤ 1 ∧ t.trace = s.trace ++ es := by
  cases h with
  | done => exact ⟨[.done], by simp, rfl⟩
  | wait => exact ⟨[], by simp, by simp⟩
  | pushCompleted => exact ⟨[.rsp stOk none], by simp, rfl⟩
  | pushToScript => exact ⟨[], by simp, by simp⟩
  | entryIssued e p => exact ⟨[.req p], by simp, rfl⟩
  | entryFaulted => exact ⟨[.rsp stFaultMissingCap none], by simp, rfl⟩
  | entrySkipped => exact ⟨[], by simp, by simp⟩
  | scriptToPush => exact ⟨[], by simp, by simp⟩
  | scriptCompleted => exact ⟨[.rsp stOk none], by simp, rfl⟩
  | stepIssued st p => exact ⟨[.req p], by simp, rfl⟩
  | stepFaulted => exact ⟨[.rsp stFaultMissingCap none], by simp, rfl⟩

/-- An accept step appends `cmd`, and after it `rsp` when it answers the command in the step (42_lifecycle.md R150 to R152;
log entry 8). -/
theorem accept_appends {s t : State} {h : CmdWord} (ha : Accept s h t) :
    t.trace = (logEvent (.cmd h) s).trace ∨ ∃ st d, t.trace = (logEvent (.cmd h) s).trace ++ [.rsp st d] := by
  cases ha with
  | faulted => exact .inr ⟨_, _, rfl⟩
  | bad => exact .inr ⟨_, _, rfl⟩
  | command i t _ _ hc =>
    cases hc with
    | configure => exact .inr ⟨_, _, rfl⟩
    | describe => exact .inr ⟨_, _, rfl⟩
    | notConfigured => exact .inr ⟨_, _, rfl⟩
    | invalidTransition => exact .inr ⟨_, _, rfl⟩
    | powerUp => exact .inl rfl
    | suspend => exact .inl rfl

/-- Every step but reset appends at most one event (20_memory.md R56), save an accept step that answers its command: that
one appends `cmd` and `rsp`, as 42_lifecycle.md R152 writes it (log entry 8). -/
theorem step_appends {s t : State} (h : step s = .next t) (hr : s.inputs.head? ≠ some .reset) :
    (∃ es, es.length ≤ 1 ∧ t.trace = s.trace ++ es) ∨
      ∃ c st d, s.inputs.head? = some (.command c) ∧ s.canAccept = true ∧
        t.trace = s.trace ++ [.cmd c, .rsp st d] := by
  obtain ⟨-, hm⟩ := step_moves h
  clear h
  cases hm with
  | reset rest hi => exact absurd (by rw [hi]; rfl) hr
  | stall rest => exact .inl ⟨[], by simp, by simp⟩
  | run rest t _ ho => exact .inl (own_appends (s := { s with inputs := rest }) ho)
  | own t _ ho => exact .inl (own_appends ho)
  | accept c rest t hi ha _ hacc =>
    obtain ht | ⟨st, d, ht⟩ := accept_appends hacc
    · exact .inl ⟨[.cmd c], by simp, ht⟩
    · exact .inr ⟨c, st, d, by rw [hi]; rfl, ha, by rw [ht]; simp⟩

/-! ## Which step is taken -/

theorem canAccept_of_busy {s : State} (h : s.phase.isBusy = true) : s.canAccept = false := by
  cases hp : s.phase <;> simp [hp, Phase.isBusy, Phase.isPush, Phase.isScript] at h <;>
    simp [State.canAccept, State.cmdReady, hp]

/-- With no move but HOST's, a block that accepts nothing takes its own step. -/
theorem step_eq_ownStep {s : State} (hc : cfgCheck s.cfg = none) (hi : onlyHost s.inputs)
    (ha : s.canAccept = false ∨ s.inputs = []) : step s = ownStep s := by
  unfold step checkedStep
  rw [hc]
  cases hs : s.inputs with
  | nil => simp [takeMove, hs]
  | cons x xs =>
    cases x <;> simp [hs, onlyHost] at hi
    have hn : s.canAccept = false := ha.resolve_right (by simp [hs])
    simp [takeMove, hs, hn]

/-- With a request outstanding the own step is ENV's. -/
theorem ownStep_done {s : State} (h : s.pend = true) : ownStep s = .next (envDone s) := by
  simp [ownStep, h]

/-- In a push phase with no request outstanding the own step is the push step. -/
theorem ownStep_push {s : State} (h : s.canPush = true) (hr : s.reservedHeld = false) : ownStep s = pushStep s := by
  obtain ⟨hp | hp, hq⟩ := canPush_iff.1 h <;> simp [ownStep, seqDoes, hp, hq, hr]

/-- In a script phase with no request outstanding the own step is the script step. -/
theorem ownStep_script {s : State} (h : s.canScript = true) (hr : s.reservedHeld = false) :
    ownStep s = scriptStep s := by
  obtain ⟨hp | hp, hq⟩ := canScript_iff.1 h <;> simp [ownStep, seqDoes, hp, hq, hr]

/-- A presented command that is accepted is the accept step. -/
theorem step_eq_acceptStep {s : State} {h : CmdWord} {rest : List Input} (hc : cfgCheck s.cfg = none)
    (hr : s.reservedHeld = false) (hi : s.inputs = .command h :: rest) (ha : s.canAccept = true) :
    step s = acceptStep h { s with inputs := rest } := by
  unfold step checkedStep
  rw [hc]
  simp [takeMove, hi, ha, seqDoes, hr]

end Sys2Proof.Machine
end

