-- ==== Sys2Proof/Laws/Run.lean ====
section
/-! SUPPORT. Runs: a run in two parts, one step at a time, and ENV's step within a run. -/

namespace Sys2Proof.Machine

/-- A run in two parts. -/
theorem run_add {M : Host.Core} {a b : Nat} {s t : M.State} (h : M.run a s = .next t) :
    M.run (a + b) s = M.run b t := by
  induction a generalizing s with
  | zero =>
    cases h
    rw [Nat.zero_add]
  | succ a ih =>
    rw [Nat.add_right_comm]
    simp only [Host.Core.run] at h ⊢
    split at h
    · exact ih h
    · cases h
    · cases h

/-- A run after its first step. -/
theorem run_succ {s t : State} {b : Nat} (h : step s = .next t) : core.run (b + 1) s = core.run b t := by
  have hc : core.step s = .next t := h
  simp only [Host.Core.run, hc]

/-- A run of no steps. -/
theorem run_zero (s : State) : core.run 0 s = .next s := rfl

/-- While the block is busy with a request outstanding, and HOST alone waits, the step is ENV's. -/
theorem step_done {s : State} (hc : cfgCheck s.cfg = none) (hp : s.pend = true) (hb : s.phase.isBusy = true)
    (hi : onlyHost s.inputs) : step s = .next (envDone s) := by
  rw [step_eq_ownStep hc hi (.inl (canAccept_of_busy hb)), ownStep_done hp]

end Sys2Proof.Machine
end

