-- ==== Sys2Proof/Tests/Slice0.lean ====
section
/-! SUPPORT. The model's own tests: expected values from 95_test_vectors.md (the vector is named at each test) and from the rules; then, for every statement with hypotheses, states that meet them. -/

namespace Sys2Proof.Tests

open Machine

/-! ## Small states -/

/-- CFG_S of 95_test_vectors.md, with a suspend table and both scripts cut from its CFG_T, and 4 bytes per liveness entry. -/
def cfg : Cfg :=
  { defaultCfg with
    initTable := [⟨0xB9, 3, paramsOf [0xF1, 0x12, 0x83]⟩, ⟨0xFFFC, 5, paramsOf []⟩, ⟨0xFFFD, 0, paramsOf []⟩]
    initCount := 3
    suspTable := [⟨0x28, 0, paramsOf []⟩, ⟨0xFFFC, 20, paramsOf []⟩]
    suspCount := 2
    upScript := [⟨1, 1, 0, 5500⟩, ⟨0, 1, 0, 0⟩]
    downScript := [⟨2, 10, 0, 0⟩]
    descriptor := { emptyDescriptor with width := some 720, height := some 1520 }
    livenessBytesMax := 4 }

/-- Idle after reset, with these moves to come. -/
def fresh (ins : List Input) : State := { State.reset with cfg := cfg, inputs := ins }

/-- Idle and configured with every used capability. -/
def idle (l : LState) (ins : List Input) : State :=
  { fresh ins with lstate := l, capValid := true, caps := 0x1F, trace := [.cmd 0x1F01, .rsp 0 none] }

/-- In an init push, before entry `i`. -/
def pushing (caps : CapBits) (i : U32) (ins : List Input) : State :=
  { fresh ins with
    phase := .pushInit, curOp := 3, capValid := true, caps := caps, idx := i, count := 3, force := true
    sidx := 2, trace := [.cmd 3] }

/-- In a suspend push, before entry `i`. -/
def suspending (i : U32) (ins : List Input) : State :=
  { fresh ins with
    lstate := .active, phase := .pushSusp, curOp := 4, capValid := true, caps := 0x1F, idx := i, count := 2
    tsel := .susp, force := true, trace := [.cmd 4] }

/-- In the power-up script, before step `i`. -/
def poweringUp (caps : CapBits) (i : U32) (ins : List Input) : State :=
  { fresh ins with phase := .pwrUp, curOp := 3, capValid := true, caps := caps, sidx := i, trace := [.cmd 3] }

/-- In the power-down script, before step `i`. -/
def poweringDown (caps : CapBits) (i : U32) (ins : List Input) : State :=
  { fresh ins with
    lstate := .active, phase := .pwrDown, curOp := 4, capValid := true, caps := caps, tsel := .susp, count := 2
    idx := 2, sidx := i, trace := [.cmd 4] }

/-- In `FAULTED`, with the write capability missing. -/
def faulted (ins : List Input) : State :=
  { fresh ins with
    phase := .faulted, capValid := true, caps := 0x0F, fault := true, faultCode := 1, faultInfo := ⟨3, 2, 0, 4⟩
    status := 0x10, trace := [.cmd 3, .rsp 0x10 none] }

/-- Busy, with the write of entry 0 outstanding. -/
def writing (ins : List Input) : State :=
  { pushing 0x1F 1 ins with
    pend := true, req := .writeCommand 0xB9 3 [0xF1, 0x12, 0x83] true
    trace := [.cmd 3, .req (.writeCommand 0xB9 3 [0xF1, 0x12, 0x83] true)] }

/-- A test of the next state; false where the machine stops. -/
def after (o : Host.Outcome State Fault Refusal) (f : State → Bool) : Bool :=
  match o with
  | .next s => f s
  | .fault _ => false
  | .refused _ => false

/-- The last event of a trace. -/
def last (s : State) : Option Event := s.trace.getLast?

/-! ## Well-formedness: every check refuses an ill-formed term -/

theorem test_illFormed_reserved : ¬ (Instr.write 0xFFFC 0 []).wellFormed .default := by decide
theorem test_illFormed_oversized : ¬ (Instr.write 0xB9 65 (List.replicate 65 0)).wellFormed .default := by decide
theorem test_illFormed_length : ¬ (Instr.write 0xB9 3 [1, 2]).wellFormed .default := by decide
theorem test_wellFormed_write : (Instr.write 0xB9 3 [0xF1, 0x12, 0x83]).wellFormed .default := by decide
/-- V-C3. -/
theorem test_wf1_refuses : cfgCheck { cfg with suspTable := [⟨0xB9, 65, paramsOf []⟩] } = some .wf1 := by decide
/-- V-C2. -/
theorem test_wf2_refuses : cfgCheck { cfg with ops := ⟨0xFFFC, 0xFFFB, 0xFFFC⟩ } = some .wf2 := by decide
/-- V-C5. -/
theorem test_wf3_refuses : cfgCheck { cfg with suspCount := 3 } = some .wf3 := by decide
/-- V-S3, V-S11, V-C7. -/
theorem test_wf4_refuses :
    cfgCheck { cfg with upScript := [⟨0, 2, 0, 0⟩] } = some .wf4 ∧
      cfgCheck { cfg with upScript := [⟨4, 0, 0, 0⟩] } = some .wf4 ∧
      cfgCheck { cfg with downScript := [⟨1, 2, 0, 0⟩] } = some .wf4 := by decide
/-- V-C6. -/
theorem test_wf5_refuses :
    cfgCheck { cfg with descriptor := { emptyDescriptor with livenessCount := some 4 } } = some .wf5 := by decide
/-- WF6 refuses a script of 2^32 steps, whatever they are. -/
theorem test_wf6_refuses (c : Cfg) (h : c.upScript.length = 2 ^ 32) : wf6 c = false := by
  simp [wf6, maxLength, h]
/-- V-C4: WF1 binds WRITE entries only. -/
theorem test_wf1_admits_delay : cfgCheck { cfg with initTable := List.replicate 3 ⟨0xFFFC, 200, paramsOf []⟩ } = none := by
  decide

/-! ## Decoding: words written out from the encodings -/

/-- V-W1, entry image of CFG_T's INIT_TABLE. -/
theorem test_decode_write :
    decode .default .e ([0xB9, 0, 0, 0, 3, 0xF1, 0x12, 0x83] ++ List.replicate 64 0) =
      .ok (.write 0xB9 3 [0xF1, 0x12, 0x83]) := by decide
/-- V-E2: all 32 bits are compared. -/
theorem test_decode_write_high :
    decode .default .e ([0xFC, 0xFF, 0x01, 0x00, 1, 0x5A] ++ List.replicate 66 0) = .ok (.write 0x1FFFC 1 [0x5A]) := by
  decide
/-- X2. -/
theorem test_decode_delay :
    decode .default .e ([0xFC, 0xFF, 0, 0, 0x78] ++ List.replicate 67 0) = .ok (.delay 120) := by decide
/-- V-E5. -/
theorem test_decode_udelay :
    decode .default .e ([0xFB, 0xFF, 0, 0, 5] ++ List.replicate 67 0) = .ok (.udelay 5) := by decide
/-- V-E6. -/
theorem test_decode_end :
    decode .default .e ([0xFD, 0xFF, 0, 0, 9, 0xAA] ++ List.replicate 66 0) = .ok .endMark := by decide
/-- V-W8. -/
theorem test_decode_oversized :
    decode .default .e ([0xB9, 0, 0, 0, 65] ++ List.replicate 67 0) = .error .oversizedWrite := by decide
theorem test_decode_truncated : decode .default .e (List.replicate 71 0) = .error .truncated := by decide
/-- Script-step images of CFG_T: UP 3. -/
theorem test_decode_sReset :
    decode .default .s [0, 0, 0, 0, 1, 0, 0, 0, 0, 0, 0, 0, 0, 0, 0, 0] = .ok (.sReset true) := by decide
/-- Script-step images of CFG_T: UP 0. -/
theorem test_decode_sBias :
    decode .default .s [1, 0, 0, 0, 1, 0, 0, 0, 0, 0, 0, 0, 0x7C, 0x15, 0, 0] = .ok (.sBias true 0 5500) := by decide
/-- Script-step images of CFG_T: UP 2. -/
theorem test_decode_sMdelay :
    decode .default .s [2, 0, 0, 0, 0x0A, 0, 0, 0, 0, 0, 0, 0, 0, 0, 0, 0] = .ok (.sMdelay 10) := by decide
/-- V-S10, `b` and `c` ignored. -/
theorem test_decode_sUdelay :
    decode .default .s [3, 0, 0, 0, 0xE8, 3, 0, 0, 1, 1, 1, 1, 2, 2, 2, 2] = .ok (.sUdelay 1000) := by decide
theorem test_decode_reservedKind :
    decode .default .s [4, 0, 0, 0, 0, 0, 0, 0, 0, 0, 0, 0, 0, 0, 0, 0] = .error .reservedKind := by decide
/-- V-H1, V-H4: `h[15]` is ignored. -/
theorem test_decode_configure :
    decodeCommand 0x1F01 = .ok (.hConfigure 0x1F) ∧ decodeCommand 0x9F01 = .ok (.hConfigure 0x1F) := by decide
theorem test_decode_describe : decodeCommand 0x0002 = .ok .hDescribe := by decide
/-- V-H25: `h[15:8]` is ignored. -/
theorem test_decode_initialize :
    decodeCommand 0x0003 = .ok .hInitialize ∧ decodeCommand 0x8003 = .ok .hInitialize ∧
      decodeCommand 0x1F03 = .ok .hInitialize := by decide
theorem test_decode_suspend : decodeCommand 0x0004 = .ok .hSuspend := by decide
theorem test_decode_resume : decodeCommand 0x0005 = .ok .hResume := by decide
/-- V-H17. -/
theorem test_decode_badCommand :
    [0x0000, 0x0006, 0x00FF, 0x0106].all (fun h : CmdWord => decodeCommand h == .error .badCommandCode) = true := by
  decide
/-- V-E7, V-E8: with another `OP_DELAY`. -/
theorem test_decode_otherOps :
    decodeEntry ⟨0xF0, 0xFFFB, 0xFFFD⟩ ⟨0xFFFC, 5, paramsOf []⟩ = .write 0xFFFC 5 [0, 0, 0, 0, 0] ∧
      decodeEntry ⟨0xF0, 0xFFFB, 0xFFFD⟩ ⟨0xF0, 5, paramsOf []⟩ = .delay 5 := by decide
theorem test_table_words :
    decodeTableWord 32 0xB9 = some (.write 0xB9 0 []) ∧ decodeTableWord 32 0xFFFC = some (.delay 0) ∧
      decodeTableWord 32 3 = some (.sUdelay 0) ∧ decodeTableWord 16 0x1F01 = some (.hConfigure 0x1F) := by decide
/-- The placed record is what the very next step runs (log entry 14). -/
theorem test_withFetchWord :
    after (step (State.reset.withFetchWord 32 0xFFFD)) (fun s => s.idx == 1 && s.trace == []) = true ∧
      after (step (State.reset.withFetchWord 32 2)) (fun s => s.faultInfo.cap == 2) = true ∧
      after (step (State.reset.withFetchWord 0 0)) (fun s => s.faultInfo.cap == 4) = true ∧
      after (step (State.reset.withFetchWord 8 1)) (fun s => s.capValid && s.trace == [.cmd 1, .rsp 0 none]) = true := by
  decide
/-- V-W6: bytes not written are 0; V-W5: more bytes than the count are not writable. -/
theorem test_notation :
    ((EntryText.mk (.number 0xB0) 4 [1]).entry .default).map (decodeEntry .default) =
        some (.write 0xB0 4 [1, 0, 0, 0]) ∧
      (EntryText.mk (.number 0xB0) 2 [1, 2, 3]).entry .default = none := by decide

/-! ## One step of each instruction -/

/-- V-W1. -/
theorem test_write :
    after (exec (.write 0xB9 3 [0xF1, 0x12, 0x83]) (pushing 0x1F 0 []))
      (fun s => last s == some (.req (.writeCommand 0xB9 3 [0xF1, 0x12, 0x83] true)) && s.idx == 1 && s.pend) = true := by
  decide
/-- V-W9. -/
theorem test_write_missing :
    after (exec (.write 0xB9 3 [0xF1, 0x12, 0x83]) (pushing 0x0F 0 []))
      (fun s => last s == some (.rsp 0x10 none) && s.faultInfo == ⟨3, 2, 0, 4⟩ && s.phase == .faulted && s.idx == 0) =
        true := by decide
/-- V-D4. -/
theorem test_delay_short :
    after (exec (.delay 10) (pushing 0x1F 1 [])) (fun s => last s == some (.req (.delayUs 10000)) && s.idx == 2) = true := by
  decide
/-- V-D5, V-D12. -/
theorem test_delay_long :
    after (exec (.delay 11) (pushing 0x17 1 [])) (fun s => last s == some (.req (.delayMs 11))) = true := by decide
/-- V-U4. -/
theorem test_udelay :
    after (exec (.udelay 255) (pushing 0x1F 1 [])) (fun s => last s == some (.req (.delayUs 255))) = true := by decide
/-- V-U5. -/
theorem test_udelay_missing :
    after (exec (.udelay 5) (pushing 0x17 1 [])) (fun s => s.fault && s.faultInfo.cap == 3) = true := by decide
/-- V-N4. -/
theorem test_end :
    after (exec .endMark (pushing 0 2 [])) (fun s => s.idx == 3 && s.trace == [.cmd 3] && !s.pend) = true := by decide
/-- V-S2. -/
theorem test_sReset :
    after (exec (.sReset true) (poweringUp 0x1F 1 [])) (fun s => last s == some (.req (.setResetPin true)) && s.sidx == 2) =
      true := by decide
/-- V-S13. -/
theorem test_sReset_missing :
    after (exec (.sReset false) (poweringDown 0x1E 1 []))
      (fun s => s.faultInfo == ⟨4, 4, 1, 0⟩ && s.lstate == .active && s.sidx == 1 && s.status == 0x10) = true := by decide
/-- V-S5. -/
theorem test_sBias :
    after (exec (.sBias false 7 0xFFFFFFFF) (poweringUp 0x1F 0 []))
      (fun s => last s == some (.req (.setBias false 7 0xFFFFFFFF))) = true := by decide
/-- V-S6. -/
theorem test_sMdelay :
    after (exec (.sMdelay 5) (poweringUp 0x1F 0 [])) (fun s => last s == some (.req (.delayMs 5))) = true := by decide
/-- V-S12. -/
theorem test_sMdelay_missing :
    after (exec (.sMdelay 10) (poweringUp 0x1B 2 [])) (fun s => s.faultInfo == ⟨3, 1, 2, 2⟩ && s.sidx == 2) = true := by
  decide
/-- V-S10. -/
theorem test_sUdelay :
    after (exec (.sUdelay 1000) (poweringUp 0x1F 0 [])) (fun s => last s == some (.req (.delayUs 1000))) = true := by decide
/-- V-H1. -/
theorem test_configure :
    after (step (fresh [.command 0x1F01]))
      (fun s => s.caps == 0x1F && s.capValid && s.trace == [.cmd 0x1F01, .rsp 0 none]) = true := by decide
/-- V-H21. -/
theorem test_configure_faulted :
    after (step (faulted [.command 0x1F01])) (fun s => s.caps == 0x0F && last s == some (.rsp 4 none) && s.fault) = true := by
  decide
/-- R154's example. -/
theorem test_describe :
    after (exec .hDescribe (fresh []))
      (fun s => match last s with
        | some (.rsp 0 (some d)) => d.width == 720 && d.height == 1520 && d.lanes == 0 && d.livenessCount == 0
        | _ => false) = true := by decide
/-- V-H8, V-H14: INITIALIZE runs from every lifecycle state. -/
theorem test_initialize :
    [LState.uninit, .active, .suspended].all (fun l =>
      after (step (idle l [.command 3])) (fun s => s.phase == .pwrUp && s.curOp == 3 && last s == some (.cmd 3))) = true := by
  decide
/-- V-H6. -/
theorem test_initialize_notConfigured :
    after (step (fresh [.command 3])) (fun s => last s == some (.rsp 2 none) && s.phase == .idle) = true := by decide
/-- V-H12. -/
theorem test_suspend :
    after (step (idle .active [.command 4])) (fun s => s.phase == .pushSusp && s.count == 2 && s.force && s.tsel == .susp) =
      true := by decide
/-- V-H9, V-H15. -/
theorem test_suspend_illegal :
    [LState.uninit, .suspended].all (fun l =>
      after (step (idle l [.command 4])) (fun s => last s == some (.rsp 1 none) && s.lstate == l)) = true := by decide
/-- V-H16. -/
theorem test_resume :
    after (step (idle .suspended [.command 5])) (fun s => s.phase == .pwrUp && s.curOp == 5) = true := by decide
/-- V-H10, V-H13. -/
theorem test_resume_illegal :
    [LState.uninit, .active].all (fun l => after (step (idle l [.command 5])) (fun s => last s == some (.rsp 1 none))) =
      true := by decide
/-- V-H18, V-H20. -/
theorem test_badCommand :
    after (step (fresh [.command 7])) (fun s => last s == some (.rsp 3 none)) = true ∧
      after (step (faulted [.command 7])) (fun s => last s == some (.rsp 4 none)) = true := by decide
/-- P1, step 5. -/
theorem test_envDone :
    after (step (writing [])) (fun s => !s.pend && last s == some .done && s.idx == 1) = true := by decide
/-- V-P2, V-P3. -/
theorem test_pushDone :
    after (step (pushing 0x1F 3 [])) (fun s => s.lstate == .active && s.phase == .idle && last s == some (.rsp 0 none)) = true ∧
      after (step (suspending 2 [])) (fun s => s.sidx == 0 && s.phase == .pwrDown && s.trace == [.cmd 4]) = true := by
  decide
/-- V-S14, V-S15. -/
theorem test_scriptDone :
    after (step (poweringUp 0x1F 2 [])) (fun s => s.phase == .pushInit && s.count == 3 && s.force && s.idx == 0) = true ∧
      after (step (poweringDown 0x1F 1 [])) (fun s => s.lstate == .suspended && s.phase == .idle) = true := by decide
/-- V-R1, V-R3. -/
theorem test_reset :
    after (step (writing [.reset])) (fun s => !s.pend && s.phase == .idle && s.trace == [] && !s.capValid && s.caps == 0) =
      true := by decide

/-! ## States that meet the hypotheses of the statements -/

/-- What a statement about a running block asks of a state. -/
theorem test_live :
    (fresh []).live ∧ (pushing 0x1F 0 []).live ∧ (poweringUp 0x1F 0 []).live ∧ (poweringDown 0x1F 0 []).live ∧
      (suspending 0 []).live ∧ (faulted []).live := by
  refine ⟨?_, ?_, ?_, ?_, ?_, ?_⟩ <;> exact ⟨by decide, by decide⟩

theorem test_inv_idle : (idle .suspended [.command 3]).Inv :=
  ⟨by decide, by decide, by decide, by decide, rfl, trivial, by decide, nofun, by decide, by decide, by decide,
    by decide, by decide⟩

theorem test_inv_active : (idle .active [.command 4]).Inv :=
  ⟨by decide, by decide, by decide, by decide, rfl, trivial, by decide, nofun, by decide, by decide, by decide,
    by decide, by decide⟩

theorem test_inv_pushing : (pushing 0x1F 0 []).Inv :=
  ⟨by decide, by decide, by decide, by decide, .inl rfl, ⟨rfl, rfl, rfl, by decide⟩, by decide, nofun, by decide,
    by decide, by decide, by decide, by decide⟩

theorem test_inv_writing : (writing []).Inv :=
  ⟨by decide, by decide, by decide, by decide, .inl rfl, ⟨rfl, rfl, rfl, by decide⟩, by decide,
    fun _ => ⟨by decide, by decide⟩, by decide, by decide, by decide, by decide, by decide⟩

theorem test_inv_faulted : (faulted []).Inv :=
  ⟨by decide, by decide, by decide, by decide, rfl, trivial, by decide, nofun, by decide, by decide, by decide,
    by decide, by decide⟩

theorem test_witness_ResetActsInEveryStateAndAloneClearsTheFault :
    (cfgCheck (writing [.reset]).cfg = none ∧ (writing [.reset]).inputs = .reset :: []) ∧
      ∃ t, step (faulted [.command 0x1F01]) = .next t ∧ (faulted [.command 0x1F01]).inputs.head? ≠ some .reset ∧
        (faulted [.command 0x1F01]).fault = true ∧ (faulted [.command 0x1F01]).phase = .faulted :=
  ⟨by decide, _, rfl, by decide, rfl, rfl⟩

theorem test_witness_DecodeOfEncodeIsTheInstruction :
    ReservedOps.default.distinct = true ∧ (Instr.write 0 0 []).wellFormed .default ∧
      (Instr.write 0xFFFFFFFF 64 (List.replicate 64 0xA5)).wellFormed .default := by decide

theorem test_witness_EntryKindIsChosenByTheOpcode :
    ReservedOps.distinct ⟨0xF0, 0xF1, 0xF2⟩ = true ∧ ((0xF0 : U32) ≠ 0xF1 ∧ (0xF0 : U32) ≠ 0xF2) ∧
      ((0x100F0 : U32) ≠ 0xF0 ∧ (0x100F0 : U32) ≠ 0xF1 ∧ (0x100F0 : U32) ≠ 0xF2) := by decide

/-- An END with another count and other bytes; a WRITE with another byte past its count. -/
theorem test_witness_IgnoredEntryBytesDecideNothing :
    ReservedOps.default.holds 0xFFFD = true ∧ (0xFFFD : U32) = ReservedOps.default.fin ∧
      ∀ j (h : j < 64), j < (2 : Byte).toNat →
        (Entry.mk 0xB0 2 (paramsOf [1, 2, 3])).params[j] = (Entry.mk 0xB0 2 (paramsOf [1, 2])).params[j] := by
  refine ⟨by decide, by decide, ?_⟩
  intro j h hj
  have hj' : j < 2 := hj
  match j, hj' with
  | 0, _ => rfl
  | 1, _ => rfl

theorem test_witness_ScriptStepKinds :
    (0 : U32).toNat ≤ 1 ∧ (1 : U32).toNat ≤ 1 ∧ 1 < (2 : U32).toNat ∧ 3 < (4 : U32).toNat ∧
      3 < (0xFFFFFFFF : U32).toNat := by decide

theorem test_witness_TableImageLayout :
    cfg.initTable[2]? = some ⟨0xFFFD, 0, paramsOf []⟩ ∧ (List.replicate 69 (0 : Byte)).length = 69 ∧
      [(0 : Byte), 0, 0].length = 3 ∧ [(1 : Byte), 2, 3].length = 3 := by decide

theorem test_witness_ImageReadsBackWhatWasWritten :
    memWrite [0, 0, 0, 0] 2 2 0xABCD = some [0, 0, 0xCD, 0xAB] ∧ 2 + 2 ≤ [(0 : Byte), 0, 0, 0].length ∧
      [(0 : Byte), 0, 0, 0].length < 3 + 2 := by decide

theorem test_witness_RefusedConfigurationHasNoStep :
    cfgCheck { cfg with suspTable := [⟨0xB9, 65, paramsOf []⟩] } = some .wf1 := test_wf1_refuses

/-- In phase `ph`, no request outstanding, capability `k` present or not. -/
abbrev readyIn (s : State) (ph : Phase) (k : Nat) (b : Bool) : Prop :=
  s.phase = ph ∧ s.pend = false ∧ s.caps.getLsbD k = b

/-- In phase `ph`, no request outstanding, configured or not, in lifecycle state `l`. -/
abbrev acceptsIn (s : State) (ph : Phase) (v : Bool) (l : LState) : Prop :=
  s.phase = ph ∧ s.pend = false ∧ s.capValid = v ∧ s.lstate = l

theorem test_witness_WriteIssuesTheBusWriteOrFaults :
    ((0x1FFFC : U32) ≠ 0xFFFC ∧ (0x1FFFC : U32) ≠ 0xFFFB ∧ (0x1FFFC : U32) ≠ 0xFFFD) ∧ readyIn (pushing 0x10 0 []) .pushInit 4 true ∧ readyIn (pushing 0x0F 0 []) .pushInit 4 false ∧
      readyIn (suspending 0 []) .pushSusp 4 true := by decide

theorem test_witness_DelayIssuesByTheThresholdOrFaults :
    ReservedOps.default.delay = 0xFFFC ∧ readyIn (pushing 0x08 1 []) .pushInit 3 true ∧ readyIn (pushing 0x04 1 []) .pushInit 2 true ∧
      readyIn (pushing 0x17 1 []) .pushInit 3 false ∧ readyIn (pushing 0x1B 1 []) .pushInit 2 false ∧
      (0 : Byte).toNat ≤ 10 ∧ (10 : Byte).toNat ≤ 10 ∧ 10 < (11 : Byte).toNat ∧ 10 < (255 : Byte).toNat := by decide

theorem test_witness_UdelayIssuesMicrosecondsOrFaults :
    (ReservedOps.default.distinct = true ∧ ReservedOps.default.udelay = 0xFFFB) ∧
      readyIn (pushing 0x08 0 []) .pushInit 3 true ∧ readyIn (pushing 0x17 0 []) .pushInit 3 false := by decide

theorem test_witness_EndOnlyAdvances :
    (ReservedOps.default.distinct = true ∧ ReservedOps.default.fin = 0xFFFD) ∧ readyIn (pushing 0 2 []) .pushInit 4 false := by decide

theorem test_witness_ScriptResetDrivesTheLineOrFaults :
    (0 : U32).toNat ≤ 1 ∧ (1 : U32).toNat ≤ 1 ∧
      readyIn (poweringUp 0x01 0 []) .pwrUp 0 true ∧ readyIn (poweringDown 0x1E 0 []) .pwrDown 0 false := by decide

theorem test_witness_ScriptBiasPassesItsArgumentsOrFaults :
    (0 : U32).toNat ≤ 1 ∧ (1 : U32).toNat ≤ 1 ∧
      readyIn (poweringUp 0x02 0 []) .pwrUp 1 true ∧ readyIn (poweringDown 0x1D 0 []) .pwrDown 1 false := by decide

theorem test_witness_ScriptMillisecondWaitOrFaults :
    readyIn (poweringUp 0x04 0 []) .pwrUp 2 true ∧ readyIn (poweringDown 0x1B 0 []) .pwrDown 2 false := by decide

theorem test_witness_ScriptMicrosecondWaitOrFaults :
    readyIn (poweringUp 0x08 0 []) .pwrUp 3 true ∧ readyIn (poweringDown 0x17 0 []) .pwrDown 3 false := by decide

theorem test_witness_ConfigureStoresTheCapabilities :
    (0x9F01 : CmdWord).toNat % 256 = 1 ∧ acceptsIn (idle .active []) .idle true .active ∧ acceptsIn (faulted []) .faulted true .uninit := by decide

theorem test_witness_DescribeAnswersTheDescriptor :
    (0xFF02 : CmdWord).toNat % 256 = 2 ∧ acceptsIn (fresh []) .idle false .uninit ∧ acceptsIn (faulted []) .faulted true .uninit := by decide

theorem test_witness_InitializeStartsThePowerUpScript :
    acceptsIn (idle .active []) .idle true .active ∧ acceptsIn (fresh []) .idle false .uninit ∧
      acceptsIn (faulted []) .faulted true .uninit := by decide

theorem test_witness_SuspendStartsTheSuspendPush :
    acceptsIn (idle .active []) .idle true .active ∧
      (acceptsIn (idle .suspended []) .idle true .suspended ∧ (idle .suspended []).cfg.checkTransitions = true) ∧
      (acceptsIn { idle .uninit [] with cfg := { cfg with checkTransitions := false } } .idle true .uninit ∧
        { idle .uninit [] with cfg := { cfg with checkTransitions := false } }.cfg.checkTransitions = false) ∧
      acceptsIn (fresh []) .idle false .uninit ∧ acceptsIn (faulted []) .faulted true .uninit := by decide

theorem test_witness_ResumeStartsThePowerUpScript :
    acceptsIn (idle .suspended []) .idle true .suspended ∧
      (acceptsIn (idle .active []) .idle true .active ∧ (idle .active []).cfg.checkTransitions = true) ∧
      acceptsIn (fresh []) .idle false .uninit ∧ acceptsIn (faulted []) .faulted true .uninit := by decide

/-- A liveness table of two entries, one within the count. -/
theorem test_witness_DescriptorIsCompletedWithZeros :
    let c : Cfg := { cfg with descriptor := { emptyDescriptor with
      livenessCount := some 1, liveness := [⟨some 0x0A, 1, [0x9C, 0xFF]⟩, ⟨some 0x0B, 1, [1]⟩] } }
    (zeroFill c).liveness[0]? = some ⟨0x0A, 1, [0x9C, 0, 0, 0]⟩ ∧ (zeroFill c).liveness[1]? = some ⟨0, 0, [0, 0, 0, 0]⟩ ∧
      0 < (zeroFill c).livenessCount.toNat ∧ 0 < c.esdMax := by decide

/-- The table entry or script step that `s` reads next, at its index. -/
abbrev readsEntry (s : State) (e : Entry) : Prop :=
  s.pend = false ∧ s.idx.toNat < s.count.toNat ∧
    (if s.tsel = .init then s.cfg.initTable else s.cfg.suspTable)[s.idx.toNat]? = some e

theorem test_witness_PushStepRunsTheDecodedEntry :
    ((pushing 0x1F 2 [.run]).live ∧ (pushing 0x1F 2 [.run]).phase = .pushInit ∧
        readsEntry (pushing 0x1F 2 [.run]) ⟨0xFFFD, 0, paramsOf []⟩ ∧ (pushing 0x1F 2 [.run]).inputs = .run :: []) ∧
      ((pushing 0x1F 0 []).live ∧ readsEntry (pushing 0x1F 0 []) ⟨0xB9, 3, paramsOf [0xF1, 0x12, 0x83]⟩ ∧
        (pushing 0x1F 0 []).inputs = []) ∧
      ((suspending 1 [.command 2]).live ∧ (suspending 1 [.command 2]).phase = .pushSusp ∧
        readsEntry (suspending 1 [.command 2]) ⟨0xFFFC, 20, paramsOf []⟩ ∧
        (suspending 1 [.command 2]).inputs = .command 2 :: []) :=
  ⟨⟨⟨by decide, by decide⟩, by decide⟩, ⟨⟨by decide, by decide⟩, by decide⟩, ⟨⟨by decide, by decide⟩, by decide⟩⟩

theorem test_witness_ScriptStepRunsTheDecodedStep :
    ((poweringUp 0x1F 1 [.run]).live ∧ (poweringUp 0x1F 1 [.run]).pend = false ∧
        (poweringUp 0x1F 1 [.run]).cfg.upScript[(poweringUp 0x1F 1 [.run]).sidx.toNat]? = some ⟨0, 1, 0, 0⟩ ∧
        decodeStep ⟨0, 1, 0, 0⟩ = .ok (.sReset true)) ∧
      ((poweringDown 0x1F 0 [.command 2]).live ∧ (poweringDown 0x1F 0 [.command 2]).pend = false ∧
        (poweringDown 0x1F 0 [.command 2]).cfg.downScript[(poweringDown 0x1F 0 [.command 2]).sidx.toNat]? =
          some ⟨2, 10, 0, 0⟩ ∧
        decodeStep ⟨2, 10, 0, 0⟩ = .ok (.sMdelay 10)) :=
  ⟨⟨⟨by decide, by decide⟩, by decide⟩, ⟨⟨by decide, by decide⟩, by decide⟩⟩

/-- HOST presents `h` to a block that accepts it. -/
abbrev presents (s : State) (ph : Phase) (h : CmdWord) : Prop :=
  cfgCheck s.cfg = none ∧ s.reservedHeld = false ∧ s.phase = ph ∧ s.pend = false ∧ s.inputs = .command h :: []

theorem test_witness_AcceptStepRunsTheDecodedCommand :
    presents (idle .active [.command 4]) .idle 4 ∧ decodeCommand 4 = .ok .hSuspend ∧
      presents (faulted [.command 0x1F01]) .faulted 0x1F01 ∧ decodeCommand 0x1F01 = .ok (.hConfigure 0x1F) := by decide

/-- Every branch of the accept step, in order. -/
theorem test_witness_AcceptStepChecksInOrder :
    presents (faulted [.command 7]) .faulted 7 ∧ presents (fresh [.command 0]) .idle 0 ∧
      presents (fresh [.command 6]) .idle 6 ∧ presents (fresh [.command 0x1F01]) .idle 0x1F01 ∧
      presents (fresh [.command 2]) .idle 2 ∧ presents (fresh [.command 5]) .idle 5 ∧
      presents (idle .uninit [.command 4]) .idle 4 ∧ presents (idle .active [.command 5]) .idle 5 ∧
      presents (idle .active [.command 4]) .idle 4 ∧ presents (idle .suspended [.command 5]) .idle 5 := by decide

theorem test_witness_PushDoneEndsThePush :
    (pushing 0x1F 3 []).live ∧ (pushing 0x1F 3 []).count.toNat ≤ (pushing 0x1F 3 []).idx.toNat ∧
      onlyHost (pushing 0x1F 3 []).inputs ∧ (pushing 0x1F 3 []).tsel = .init ∧ (suspending 2 [.command 2]).live ∧
      (suspending 2 [.command 2]).count.toNat ≤ (suspending 2 [.command 2]).idx.toNat ∧
      onlyHost (suspending 2 [.command 2]).inputs ∧ (suspending 2 [.command 2]).tsel = .susp :=
  ⟨⟨by decide, by decide⟩, by decide, trivial, rfl, ⟨by decide, by decide⟩, by decide, trivial, rfl⟩

theorem test_witness_ScriptDoneEndsTheScript :
    (poweringUp 0x1F 2 []).live ∧ (poweringUp 0x1F 2 []).cfg.upScript.length ≤ (poweringUp 0x1F 2 []).sidx.toNat ∧
      (poweringDown 0x1F 1 []).live ∧
      (poweringDown 0x1F 1 []).cfg.downScript.length ≤ (poweringDown 0x1F 1 []).sidx.toNat :=
  ⟨⟨by decide, by decide⟩, by decide, ⟨by decide, by decide⟩, by decide⟩

theorem test_witness_EnvironmentCompletesTheOutstandingRequest :
    (cfgCheck (writing []).cfg = none ∧ (writing []).pend = true ∧ onlyHost (writing [.command 2]).inputs) ∧
      (writing [.run]).inputs = .run :: [] ∧
      ∃ t, step (pushing 0x1F 0 []) = .next t ∧ (pushing 0x1F 0 []).pend = false ∧
        (pushing 0x1F 0 []).inputs.head? ≠ some .reset :=
  ⟨⟨by decide, rfl, trivial⟩, rfl, _, rfl, rfl, by decide⟩

theorem test_witness_HostIsHeldWhileBusy :
    ∃ t, step (writing [.command 2]) = .next t ∧ (writing [.command 2]).phase.isBusy = true ∧
      (writing [.command 2]).inputs = .command 2 :: [] := ⟨_, rfl, by decide, rfl⟩

theorem test_witness_MeaningsStopWhereSeqHasNoStep :
    (Instr.endMark.format = .e ∧ (writing []).canPush = false) ∧
      ((Instr.sMdelay 1).format = .s ∧ (pushing 0x1F 0 []).canScript = false) ∧
      (Instr.hResume.format = .h ∧ (writing []).canAccept = false) := by decide

theorem test_witness_ReservedValuesLeaveSeqStuck :
    ({ fresh [] with lstate := .reserved3 }.lstate = .reserved3 ∧ { fresh [] with phase := .reserved6 }.pend = false ∧
      { fresh [] with phase := .reserved7 }.phase = .reserved7) ∧
      (0x05 : Byte) ∉ [(0x00 : Byte), 0x01, 0x02, 0x03, 0x04, 0x10] ∧ (0x02 : Byte) ∉ [(0x00 : Byte), 0x01] ∧
      cfgCheck (fresh []).cfg = none ∧ onlyHost (fresh []).inputs :=
  ⟨by decide, by decide, by decide, by decide, trivial⟩

theorem test_witness_BlockWaitsForACommand :
    (fresh []).live ∧ (fresh []).phase = .idle ∧ (fresh []).pend = false ∧ (faulted []).live ∧
      (writing [.stall]).inputs = .stall :: [] ∧ cfgCheck (writing [.stall]).cfg = none :=
  ⟨⟨by decide, by decide⟩, rfl, rfl, ⟨by decide, by decide⟩, rfl, by decide⟩

theorem test_witness_EntryFrame :
    (∃ t, exec (.udelay 5) (pushing 0x1F 0 []) = .next t) ∧ (∃ t, exec (.udelay 5) (pushing 0x17 0 []) = .next t) ∧
      (∃ t, exec .endMark (pushing 0 0 []) = .next t) := ⟨⟨_, rfl⟩, ⟨_, rfl⟩, ⟨_, rfl⟩⟩

theorem test_witness_ScriptFrame :
    (∃ t, exec (.sMdelay 5) (poweringUp 0x1F 0 []) = .next t) ∧
      ∃ t, exec (.sMdelay 5) (poweringDown 0x1B 0 []) = .next t := ⟨⟨_, rfl⟩, ⟨_, rfl⟩⟩

theorem test_witness_CommandFrame :
    (∃ t, exec (.hConfigure 0x1F) (fresh []) = .next t) ∧ (∃ t, exec .hSuspend (idle .active []) = .next t) ∧
      ∃ t, exec .hResume (faulted []) = .next t := ⟨⟨_, rfl⟩, ⟨_, rfl⟩, ⟨_, rfl⟩⟩

theorem test_witness_EveryStepKeepsTheInvariant :
    (∃ t, (writing []).Inv ∧ step (writing []) = .next t) ∧ ∃ t, (pushing 0x1F 0 []).Inv ∧ step (pushing 0x1F 0 []) = .next t :=
  ⟨⟨_, test_inv_writing, rfl⟩, ⟨_, test_inv_pushing, rfl⟩⟩

theorem test_witness_InvariantStatesNeverStop : (faulted []).Inv ∧ (pushing 0x1F 0 []).Inv :=
  ⟨test_inv_faulted, test_inv_pushing⟩

theorem test_witness_NoStepWritesTheConfiguration :
    (∃ t, step (writing [.reset]) = .next t) ∧ ∃ t, step (idle .active [.command 4]) = .next t := ⟨⟨_, rfl⟩, ⟨_, rfl⟩⟩

theorem test_witness_LifecycleStateIsWrittenOnlyByCompletion :
    (∃ t, step (pushing 0x1F 3 []) = .next t ∧ t.lstate ≠ (pushing 0x1F 3 []).lstate) ∧
      ∃ t, step (poweringDown 0x1F 1 []) = .next t ∧ t.lstate ≠ (poweringDown 0x1F 1 []).lstate :=
  ⟨⟨_, rfl, by decide⟩, ⟨_, rfl, by decide⟩⟩

theorem test_witness_CapabilitiesAreWrittenOnlyByConfigure :
    ∃ t, step (fresh [.command 0x1F01]) = .next t ∧ (fresh [.command 0x1F01]).inputs.head? ≠ some .reset ∧
      t.caps ≠ (fresh [.command 0x1F01]).caps := ⟨_, rfl, by decide, by decide⟩

theorem test_witness_IndicesAndPushArgumentsMoveOnlyAsStated :
    ∃ t, step (pushing 0x1F 0 []) = .next t ∧ (pushing 0x1F 0 []).phase.isPush = true ∧
      t.idx = (pushing 0x1F 0 []).idx + 1 ∧ t.idx ≠ 0 := ⟨_, rfl, by decide, by decide, by decide⟩

theorem test_witness_RequestsNeedTheirCapability :
    ∃ t, step (pushing 0x1F 0 []) = .next t ∧ (pushing 0x1F 0 []).pend = false ∧ t.pend = true := ⟨_, rfl, rfl, rfl⟩

theorem test_witness_FaultEntryIsPrecise :
    ∃ t, step (pushing 0x0F 0 []) = .next t ∧ (pushing 0x0F 0 []).fault = false ∧ t.fault = true := ⟨_, rfl, rfl, rfl⟩

theorem test_witness_BusyEndsOnlyWithAResponse :
    ∃ t, step (pushing 0x0F 0 []) = .next t ∧ (pushing 0x0F 0 []).phase.isBusy = true ∧
      (pushing 0x0F 0 []).inputs.head? ≠ some .reset := ⟨_, rfl, by decide, by decide⟩

theorem test_witness_BlocksOfASystemAreIndependent :
    [fresh [], writing []][1]? = some (writing []) ∧ (∃ t, step (writing []) = .next t) ∧
      ∃ sys', systemStep [fresh [], writing []] 1 = some (.next sys') := ⟨rfl, ⟨_, rfl⟩, ⟨_, rfl⟩⟩

theorem test_witness_PushIssuesItsTableInOrder :
    (pushing 0x1F 0 []).Inv ∧ (pushing 0x1F 0 []).phase.isPush = true ∧ (pushing 0x1F 0 []).idx = 0 ∧
      onlyHost (pushing 0x1F 0 []).inputs ∧
      (pushing 0x1F 0 []).hasCaps (tableRequests cfg.ops true (cfg.initTable.take 3)) = true :=
  ⟨test_inv_pushing, by decide, rfl, trivial, by decide⟩

theorem test_witness_TableRequestCounts : cfg.ops.distinct = true ∧ cfg.initTable.length = 3 := by decide

theorem test_witness_InitializeRunsToCompletion :
    (idle .suspended [.command 3]).Inv ∧ (idle .suspended [.command 3]).phase = .idle ∧
      (idle .suspended [.command 3]).capValid = true ∧ (idle .suspended [.command 3]).inputs = .command 3 :: [] ∧
      onlyHost [] ∧ (0x0003 : CmdWord).toNat % 256 = 3 ∧
      (idle .suspended [.command 3]).hasCaps (powerUpRequests cfg) = true :=
  ⟨test_inv_idle, rfl, rfl, rfl, trivial, by decide, by decide⟩

theorem test_witness_SuspendRunsToCompletion :
    (idle .active [.command 4]).Inv ∧ (idle .active [.command 4]).lstate = .active ∧
      (idle .active [.command 4]).inputs = .command 4 :: [] ∧ (0x0004 : CmdWord).toNat % 256 = 4 ∧
      (idle .active [.command 4]).hasCaps (powerDownRequests cfg) = true :=
  ⟨test_inv_active, rfl, rfl, by decide, by decide⟩

/-- V-W9's shape: the script's requests are allowed, the first write is not. -/
theorem test_witness_InitializeStopsAtAMissingCapability :
    ({ idle .suspended [.command 3] with caps := 0x0F } : State).Inv ∧
      powerUpRequests cfg =
        [.setBias true 0 5500, .setResetPin true] ++ .writeCommand 0xB9 3 [0xF1, 0x12, 0x83] true :: [.delayUs 5000] ∧
      ({ idle .suspended [.command 3] with caps := 0x0F } : State).hasCaps [.setBias true 0 5500, .setResetPin true] =
        true ∧
      ({ idle .suspended [.command 3] with caps := 0x0F } : State).hasCap
        (.writeCommand 0xB9 3 [0xF1, 0x12, 0x83] true) = false :=
  ⟨⟨by decide, by decide, by decide, by decide, rfl, trivial, by decide, nofun, by decide, by decide, by decide,
    by decide, by decide⟩, by decide, by decide, by decide⟩

theorem test_witness_ResumeIsObservablyInitialize :
    (idle .suspended []).phase = .idle ∧ (idle .suspended []).pend = false ∧ (idle .suspended []).capValid = true ∧
      (idle .suspended []).lstate = .suspended ∧ (0x0005 : CmdWord).toNat % 256 = 5 ∧
      ∃ t, core.run 4 { idle .suspended [] with inputs := .command 0x0005 :: [] } = .next t :=
  ⟨rfl, rfl, rfl, rfl, by decide, _, rfl⟩

theorem test_witness_InitializeThenSuspend :
    (idle .suspended [.command 3, .command 4]).Inv ∧
      (idle .suspended []).hasCaps (powerUpRequests cfg) = true ∧
      (idle .suspended []).hasCaps (powerDownRequests cfg) = true :=
  ⟨⟨by decide, by decide, by decide, by decide, rfl, trivial, by decide, nofun, by decide, by decide, by decide,
    by decide, by decide⟩, by decide, by decide⟩

theorem test_witness_EveryRunHasALegalTrace :
    (pushing 0x1F 0 []).Inv ∧ ∃ t, core.run 5 (pushing 0x1F 0 []) = .next t := ⟨test_inv_pushing, _, rfl⟩

theorem test_witness_WrittenEntryStandsForItsRecord :
    (OpText.name "MICROSECOND_DELAY").value .default = some 0xFFFB ∧ ReservedOps.default.holds 0xFFFB = true ∧
      (OpText.number 0xB0).value .default = some 0xB0 ∧ ReservedOps.default.holds 0xB0 = false ∧
      [(1 : Byte), 2].length ≤ (2 : Byte).toNat ∧ (1 : Byte).toNat < [(1 : Byte), 2].length ∧
      64 < (List.replicate 65 (0 : Byte)).length := by decide

end Sys2Proof.Tests
end

section
/-! The loader's accesses to a binary image: little-endian values read back, and what a write changes (00_scope.md R11, 20_memory.md R55). -/

namespace Sys2Proof.Machine

/-- The `n` low-order-first bytes of `v` stand for `v` modulo `256 ^ n` (20_memory.md R55). -/
@[simp] theorem leValue_natBytes (n v : Nat) : leValue (natBytes n v) = v % 256 ^ n := by
  induction n generalizing v with
  | zero => simp [natBytes, leValue, Nat.mod_one]
  | succ n ih =>
    calc leValue (natBytes (n + 1) v)
        = v % 256 + 256 * (v / 256 % 256 ^ n) := by simp [natBytes, leValue, ih]
      _ = v % 256 ^ (n + 1) := by rw [Nat.pow_succ', Nat.mod_mul]

/-- A write succeeds exactly inside the image, and then puts the value's bytes between the untouched ends. -/
theorem memWrite_eq_some_iff {img img' : List Byte} {addr n v : Nat} :
    memWrite img addr n v = some img' ↔
      addr + n ≤ img.length ∧ img' = img.take addr ++ natBytes n v ++ img.drop (addr + n) := by
  simp [memWrite, eq_comm]

/-- A write outside the image answers `none` (log entry 16). -/
theorem memWrite_eq_none {img : List Byte} {addr n : Nat} (h : img.length < addr + n) (v : Nat) :
    memWrite img addr n v = none := if_neg h.not_ge

/-- A read outside the image answers `none` (log entry 16). -/
theorem memRead_eq_none {img : List Byte} {addr n : Nat} (h : img.length < addr + n) :
    memRead img addr n = none := if_neg h.not_ge

/-- A read takes exactly the bytes that stand at its address. -/
theorem memRead_append (pre bs post : List Byte) :
    memRead (pre ++ bs ++ post) pre.length bs.length = some (leValue bs) := by
  simp [memRead]

section
variable {img img' : List Byte} {addr n v : Nat} (hw : memWrite img addr n v = some img')
include hw

/-- A write keeps the image's length. -/
theorem memWrite_length : img'.length = img.length := by
  obtain ⟨hin, rfl⟩ := memWrite_eq_some_iff.1 hw
  simp only [List.length_append, List.length_take, natBytes_length, List.length_drop]
  omega

/-- Reading the bytes just written gives the value's low `n` bytes. -/
theorem memRead_memWrite : memRead img' addr n = some (v % 256 ^ n) := by
  obtain ⟨hin, rfl⟩ := memWrite_eq_some_iff.1 hw
  have haddr : (img.take addr).length = addr := List.length_take_of_le (by omega)
  have hread := memRead_append (img.take addr) (natBytes n v) (img.drop (addr + n))
  rwa [haddr, natBytes_length, leValue_natBytes] at hread

/-- A write leaves every byte below its address. -/
theorem memWrite_getElem?_below {a : Nat} (ha : a < addr) : img'[a]? = img[a]? := by
  obtain ⟨hin, rfl⟩ := memWrite_eq_some_iff.1 hw
  rw [List.append_assoc, List.getElem?_append_left (by simp; omega), List.getElem?_take_of_lt ha]

/-- A write leaves every byte from its end on. -/
theorem memWrite_getElem?_above {a : Nat} (ha : addr + n ≤ a) : img'[a]? = img[a]? := by
  obtain ⟨hin, rfl⟩ := memWrite_eq_some_iff.1 hw
  have hlen : (img.take addr ++ natBytes n v).length = addr + n := by simp; omega
  rw [List.getElem?_append_right (by omega), List.getElem?_drop, hlen, Nat.add_sub_cancel' ha]

end

/-- Settles O11: a successful write is the old image with the value's bytes spliced in, and little-endian bytes read
back as the value. -/
theorem imageReadsBackWhatWasWritten : Obligations.ImageReadsBackWhatWasWritten := by
  intro img addr n v
  refine ⟨fun img' hw => ⟨memWrite_length hw, memRead_memWrite hw, fun a ha => ?_⟩, fun hin => ?_, fun hout => ?_⟩
  · obtain hbelow | habove := ha
    · exact memWrite_getElem?_below hw hbelow
    · exact memWrite_getElem?_above hw habove
  · exact ⟨_, memWrite_eq_some_iff.2 ⟨hin, rfl⟩⟩
  · exact ⟨memWrite_eq_none hout v, memRead_eq_none hout⟩

end Sys2Proof.Machine
end

section
/-! Which registers a step may write, and how: the inputs and the trace while the block is busy, CAPS and CAP_VALID, the
indices and the arguments of a push (10_state.md R22, R27, R28, R32, R38). -/

namespace Sys2Proof.Machine

/-! ## The four kinds of step -/

/-- A step resets, leaves the block as it is, takes the block's or ENV's own step, or accepts the presented command. -/
theorem step_kinds {s t : State} (h : step s = .next t) :
    ∃ rest, (s.inputs.head? = some .reset ∧ t = resetState { s with inputs := rest }) ∨
      t = { s with inputs := rest } ∨ Own { s with inputs := rest } t ∨
      ∃ c, s.inputs = .command c :: rest ∧ s.canAccept = true ∧ Accept { s with inputs := rest } c t := by
  obtain ⟨-, hm⟩ := step_moves h
  cases hm with
  | reset rest hi => exact ⟨rest, .inl ⟨by rw [hi]; rfl, rfl⟩⟩
  | stall rest => exact ⟨rest, .inr (.inl rfl)⟩
  | run rest t _ ho => exact ⟨rest, .inr (.inr (.inl ho))⟩
  | own t _ ho => exact ⟨s.inputs, .inr (.inr (.inl ho))⟩
  | accept c rest t hi ha _ hacc => exact ⟨rest, .inr (.inr (.inr ⟨c, hi, ha, hacc⟩))⟩

/-- Where SEQ accepts nothing, a step with a command presented is the block's or ENV's own. -/
theorem step_own_of_held {s t : State} {c : CmdWord} {rest : List Input} (h : step s = .next t)
    (hi : s.inputs = .command c :: rest) (ha : s.canAccept = false) : Own s t := by
  obtain ⟨-, hm⟩ := step_moves h
  cases hm with
  | own t _ ho => exact ho
  | accept _ _ t _ hacc => simp [ha] at hacc
  | reset _ hj => simp [hi] at hj
  | stall _ hj => simp [hi] at hj
  | run _ t hj => simp [hi] at hj

/-! ## What an own step leaves and writes -/

section
variable {s t : State} (h : Own s t)
include h

/-- An own step takes no move of the outside world. -/
theorem own_inputs : t.inputs = s.inputs := by cases h <;> rfl

/-- An own step accepts no command, so it appends no `cmd` event (42_lifecycle.md R150). -/
theorem own_appends_no_cmd : ∃ es, t.trace = s.trace ++ es ∧ ∀ g, Event.cmd g ∉ es := by
  cases h with
  | done => exact ⟨[.done], rfl, by simp⟩
  | entryIssued e p | stepIssued st p => exact ⟨[.req p], rfl, by simp⟩
  | entryFaulted | stepFaulted => exact ⟨[.rsp stFaultMissingCap none], rfl, by simp⟩
  | pushCompleted | scriptCompleted => exact ⟨[.rsp stOk none], rfl, by simp⟩
  | wait | pushToScript | entrySkipped | scriptToPush => exact ⟨[], by simp, by simp⟩

/-- An own step keeps the Capability Table (10_state.md R27). -/
theorem own_caps : t.caps = s.caps ∧ t.capValid = s.capValid := by cases h <;> exact ⟨rfl, rfl⟩

/-- `IDX` advances only past an entry of the running push, and becomes 0 only where a push starts (10_state.md R22). -/
theorem own_idx :
    t.idx = s.idx ∨ (t.idx = s.idx + 1 ∧ s.phase.isPush = true ∧ s.idx.toNat < s.count.toNat) ∨ t.idx = 0 := by
  cases h with
  | entryIssued _ _ hp _ hlt | entrySkipped _ hp _ hlt =>
    exact .inr (.inl ⟨rfl, isPush_iff.2 (canPush_iff.1 hp).1, hlt⟩)
  | scriptToPush => exact .inr (.inr rfl)
  | done | wait | pushCompleted | pushToScript | entryFaulted | scriptCompleted | stepIssued | stepFaulted =>
    exact .inl rfl

/-- `SIDX` advances past a script step, and is set to 0 where a script starts (10_state.md R22). -/
theorem own_sidx : t.sidx = s.sidx ∨ t.sidx = s.sidx + 1 ∨ t.sidx = 0 := by
  cases h with
  | stepIssued => exact .inr (.inl rfl)
  | pushToScript => exact .inr (.inr rfl)
  | done | wait | pushCompleted | entryIssued | entryFaulted | entrySkipped | scriptToPush | scriptCompleted
  | stepFaulted => exact .inl rfl

/-- Only the end of the power-up script writes the arguments of a push, so a push keeps them (10_state.md R28). -/
theorem own_pushArgs (hp : s.phase.isPush = true) : t.count = s.count ∧ t.tsel = s.tsel ∧ t.force = s.force := by
  cases h with
  | scriptToPush hup => simp [hup, Phase.isPush] at hp
  | done | wait | pushCompleted | pushToScript | entryIssued | entryFaulted | entrySkipped | scriptCompleted
  | stepIssued | stepFaulted => exact ⟨rfl, rfl, rfl⟩

end

/-! ## What an accept step leaves and writes -/

/-- A word that decodes to CONFIGURE has code 0x01 and carries the presence bits in `h[14:8]` (30_encoding.md R77). -/
theorem decodeCommand_configure {c : CmdWord} {b : CapBits} (h : decodeCommand c = .ok (.hConfigure b)) :
    c.toNat % 256 = 1 ∧ b = BitVec.ofNat 7 (c.toNat / 256) := by
  unfold decodeCommand at h
  split at h
  · rename_i hcode
    cases h
    exact ⟨by rw [← cmdCode_toNat, hcode]; rfl, cmdCaps_eq c⟩
  · repeat' split at h
    all_goals cases h

section
variable {s t : State} {c : CmdWord} (h : Accept s c t)
include h

/-- Of the accepted commands only CONFIGURE, in `IDLE`, writes the Capability Table (10_state.md R27). -/
theorem accept_caps :
    (t.caps = s.caps ∧ t.capValid = s.capValid) ∨
      (s.phase = .idle ∧ decodeCommand c = .ok (.hConfigure t.caps) ∧ t.capValid = true) := by
  cases h with
  | faulted | bad => exact .inl ⟨rfl, rfl⟩
  | command i t hq hd hc =>
    cases hc with
    | configure b => exact .inr ⟨hq, hd, rfl⟩
    | describe | notConfigured | invalidTransition | powerUp | suspend => exact .inl ⟨rfl, rfl⟩

/-- An accepted command leaves `IDX`, or sets it to 0 to start a push. -/
theorem accept_idx : t.idx = s.idx ∨ t.idx = 0 := by
  cases h with
  | faulted | bad => exact .inl rfl
  | command i t _ _ hc =>
    cases hc with
    | suspend => exact .inr rfl
    | configure | describe | notConfigured | invalidTransition | powerUp => exact .inl rfl

/-- An accepted command leaves `SIDX`, or sets it to 0 to start a script. -/
theorem accept_sidx : t.sidx = s.sidx ∨ t.sidx = 0 := by
  cases h with
  | faulted | bad => exact .inl rfl
  | command i t _ _ hc =>
    cases hc with
    | powerUp => exact .inr rfl
    | configure | describe | notConfigured | invalidTransition | suspend => exact .inl rfl

end

/-! ## What a step leaves and writes -/

section
variable {s t : State} (h : step s = .next t)
include h

/-- `IDX` stays, advances within the running push, or becomes 0 (10_state.md R22). -/
theorem step_idx :
    t.idx = s.idx ∨ (t.idx = s.idx + 1 ∧ s.phase.isPush = true ∧ s.idx.toNat < s.count.toNat) ∨ t.idx = 0 := by
  obtain ⟨rest, ⟨-, rfl⟩ | rfl | ho | ⟨c, -, -, ha⟩⟩ := step_kinds h
  · exact .inr (.inr rfl)
  · exact .inl rfl
  · exact own_idx (s := { s with inputs := rest }) ho
  · exact (accept_idx ha).imp_right .inr

/-- `SIDX` stays, advances by one, or becomes 0 (10_state.md R22). -/
theorem step_sidx : t.sidx = s.sidx ∨ t.sidx = s.sidx + 1 ∨ t.sidx = 0 := by
  obtain ⟨rest, ⟨-, rfl⟩ | rfl | ho | ⟨c, -, -, ha⟩⟩ := step_kinds h
  · exact .inr (.inr rfl)
  · exact .inl rfl
  · exact own_sidx (s := { s with inputs := rest }) ho
  · exact (accept_sidx ha).imp_right .inr

/-- A running push keeps its arguments in every step but reset (10_state.md R28). -/
theorem step_pushArgs (hp : s.phase.isPush = true) (hr : s.inputs.head? ≠ some .reset) :
    t.count = s.count ∧ t.tsel = s.tsel ∧ t.force = s.force := by
  obtain ⟨rest, ⟨hreset, -⟩ | rfl | ho | ⟨c, -, hacc, -⟩⟩ := step_kinds h
  · exact absurd hreset hr
  · exact ⟨rfl, rfl, rfl⟩
  · exact own_pushArgs (s := { s with inputs := rest }) ho hp
  · have hbusy : s.phase.isBusy = true := by simp [Phase.isBusy, hp]
    simp [canAccept_of_busy hbusy] at hacc

end

/-! ## The statements -/

/-- Settles O35: a busy block accepts nothing, so the step is the block's or ENV's own. -/
theorem hostIsHeldWhileBusy : Obligations.HostIsHeldWhileBusy := by
  intro s t c rest hbusy hi h
  have ho : Own s t := step_own_of_held h hi (canAccept_of_busy hbusy)
  exact ⟨(own_inputs ho).trans hi, own_appends_no_cmd ho⟩

/-- Settles O46: of the four kinds of step, only reset and an accepted CONFIGURE write the Capability Table. -/
theorem capabilitiesAreWrittenOnlyByConfigure : Obligations.CapabilitiesAreWrittenOnlyByConfigure := by
  intro s t h hr hne
  have hchanged : ¬ (t.caps = s.caps ∧ t.capValid = s.capValid) := by tauto
  obtain ⟨rest, ⟨hreset, -⟩ | rfl | ho | ⟨c, hi, hacc, ha⟩⟩ := step_kinds h
  · exact absurd hreset hr
  · exact absurd ⟨rfl, rfl⟩ hchanged
  · exact absurd (own_caps ho) hchanged
  · obtain ⟨hidle, hdec, hvalid⟩ := (accept_caps ha).resolve_left hchanged
    obtain ⟨hcode, hcaps⟩ := decodeCommand_configure hdec
    exact ⟨c, rest, hi, hidle, (canAccept_iff.1 hacc).2, hcode, hcaps, hvalid⟩

/-- Settles O47, from what a step does to each index and to the arguments of a push. -/
theorem indicesAndPushArgumentsMoveOnlyAsStated : Obligations.IndicesAndPushArgumentsMoveOnlyAsStated := by
  intro s t h
  have hidx := step_idx h
  refine ⟨hidx.imp_right (.imp_left And.left), step_sidx h, step_pushArgs h, fun hsucc hne => ?_⟩
  obtain hkept | ⟨-, hadvanced⟩ | hzero := hidx
  · have hnext : s.idx + 1 ≠ s.idx := by simp
    exact absurd (hsucc.symm.trans hkept) hnext
  · exact hadvanced
  · exact absurd hzero hne

/-- Settles O1: the reset state holds these values by definition, and reset keeps CFG. -/
theorem resetHoldsTheSpecifiedValues : Obligations.ResetHoldsTheSpecifiedValues :=
  ⟨rfl, rfl, rfl, rfl, rfl, rfl, rfl, rfl, rfl, rfl, rfl, rfl, rfl, rfl, rfl, rfl, resetState_cfg⟩

end Sys2Proof.Machine
end

section
/-! CFG is only read, the blocks of a system share nothing, and the descriptor is completed with zeros
(20_memory.md R51, R53, R54, R66). -/

namespace Sys2Proof.Machine

/-! ## The configuration -/

/-- An own step reads CFG only (20_memory.md R51). -/
theorem own_cfg {s t : State} (h : Own s t) : t.cfg = s.cfg := by cases h <;> rfl

/-- An accept step reads CFG only (20_memory.md R51). -/
theorem accept_cfg {s t : State} {c : CmdWord} (h : Accept s c t) : t.cfg = s.cfg := by
  cases h with
  | faulted | bad => rfl
  | command i t _ _ hc => cases hc <;> rfl

/-- Settles O44: none of the four kinds of step writes CFG, and reset keeps it. -/
theorem noStepWritesTheConfiguration : Obligations.NoStepWritesTheConfiguration := by
  intro s t h
  obtain ⟨rest, ⟨-, rfl⟩ | rfl | ho | ⟨c, -, -, ha⟩⟩ := step_kinds h
  · exact resetState_cfg _
  · rfl
  · exact own_cfg (s := { s with inputs := rest }) ho
  · exact accept_cfg (s := { s with inputs := rest }) ha

/-! ## Systems of several blocks -/

/-- A step of block `n` answers a system exactly when the block answers a state, which takes the block's place. -/
theorem systemStep_next_iff {sys sys' : List State} {n : Nat} {s : State} (hs : sys[n]? = some s) :
    systemStep sys n = some (.next sys') ↔ ∃ t, step s = .next t ∧ sys' = sys.set n t := by
  simp only [systemStep, hs]
  cases step s <;> simp [eq_comm]

/-- Settles O51: the new system differs from the old one in the place of block `n` alone. -/
theorem blocksOfASystemAreIndependent : Obligations.BlocksOfASystemAreIndependent := by
  intro sys n s hs
  refine ⟨fun sys' h => ?_, fun t ht => ⟨_, (systemStep_next_iff hs).2 ⟨t, ht, rfl⟩⟩⟩
  obtain ⟨t, ht, rfl⟩ := (systemStep_next_iff hs).1 h
  have hn : n < sys.length := (List.getElem?_eq_some_iff.1 hs).1
  exact ⟨t, ht, List.getElem?_set_self hn, fun m hm => List.getElem?_set_ne hm.symm⟩

/-! ## The completed descriptor -/

@[simp] theorem zeroPad_length (n : Nat) (l : List Byte) : (zeroPad n l).length = n := by
  simp only [zeroPad, List.length_append, List.length_take, List.length_replicate]
  omega

/-- Padding keeps each byte below its length, and reads 0 where the list has none. -/
theorem zeroPad_getElem? {n j : Nat} (l : List Byte) (hj : j < n) : (zeroPad n l)[j]? = some (l.getD j 0) := by
  by_cases hl : j < l.length
  · have ht : j < (l.take n).length := by simp [hj, hl]
    simp [zeroPad, List.getElem?_append_left ht, hj, hl]
  · have ht : (l.take n).length ≤ j := by simp; omega
    have hpad : j - (l.take n).length < n - l.length := by simp; omega
    rw [zeroPad, List.getElem?_append_right ht, List.getElem?_replicate_of_lt hpad, List.getD_eq_default _ _ (by omega)]

/-- An entry of zeros holds no other byte (20_memory.md R54). -/
theorem zeroLiveness_expected {m : Nat} {b : Byte} (hb : b ∈ (zeroLiveness m).expected) : b = 0 :=
  List.eq_of_mem_replicate hb

/-- Below its count a completed entry holds the panel model's bytes, 0 where it gives none (20_memory.md R54). -/
theorem fillLiveness_expected_below {m j : Nat} {e : LivenessSpec} (hj : j < e.count.toNat) (hm : j < m) :
    (fillLiveness m e).expected[j]? = some (e.expected.getD j 0) := by
  rw [fillLiveness, zeroPad_getElem? _ hm, List.getD_eq_getElem?_getD, List.getElem?_take_of_lt hj,
    List.getD_eq_getElem?_getD]

/-- At and beyond its count a completed entry holds zeros (20_memory.md R54). -/
theorem fillLiveness_expected_beyond {m j : Nat} {e : LivenessSpec} {b : Byte} (hj : e.count.toNat ≤ j)
    (hb : (fillLiveness m e).expected[j]? = some b) : b = 0 := by
  have hm : j < m := by simpa [fillLiveness] using (List.getElem?_eq_some_iff.1 hb).1
  have hlen : (e.expected.take e.count.toNat).length ≤ j := by simp; omega
  rw [fillLiveness, zeroPad_getElem? _ hm, List.getD_eq_default _ _ hlen] at hb
  exact (Option.some.inj hb).symm

/-- The panel model's entry below `liveness_count` stands completed in the table (20_memory.md R54). -/
theorem zeroFill_liveness_set {c : Cfg} {i : Nat} {m : LivenessSpec} (hn : i < (zeroFill c).livenessCount.toNat)
    (hi : i < c.esdMax) (hm : c.descriptor.liveness[i]? = some m) :
    (zeroFill c).liveness[i]? = some (fillLiveness c.livenessBytesMax m) := by
  obtain ⟨hlt, rfl⟩ := List.getElem?_eq_some_iff.1 hm
  exact (livenessTable_getElem _ _ _ _ _ hi).trans (congrArg some (dif_pos ⟨hn, hlt⟩))

/-- Every other entry of the table is one of zeros (20_memory.md R53, R54). -/
theorem zeroFill_liveness_unset {c : Cfg} {i : Nat}
    (hn : (zeroFill c).livenessCount.toNat ≤ i ∨ c.descriptor.liveness.length ≤ i) (hi : i < c.esdMax) :
    (zeroFill c).liveness[i]? = some (zeroLiveness c.livenessBytesMax) :=
  (livenessTable_getElem _ _ _ _ _ hi).trans
    (congrArg some (dif_neg fun h => hn.elim h.1.not_ge h.2.not_ge))

/-- Settles O27: an entry of the completed table is a completed one of the panel model's or one of zeros. -/
theorem descriptorIsCompletedWithZeros : Obligations.DescriptorIsCompletedWithZeros := by
  intro c
  have hlen : (zeroFill c).liveness.length = c.esdMax := livenessTable_length _ _ _ _
  refine ⟨⟨rfl, rfl, rfl, rfl, rfl, rfl, rfl, rfl, rfl, rfl, rfl, rfl, rfl⟩, hlen, fun i e he => ?_,
    fun i m hn hi hm => ⟨_, zeroFill_liveness_set hn hi hm, rfl, rfl, fun j => fillLiveness_expected_below⟩,
    fun name => rfl⟩
  have hi : i < c.esdMax := hlen ▸ (List.getElem?_eq_some_iff.1 he).1
  by_cases hn : (zeroFill c).livenessCount.toNat ≤ i ∨ c.descriptor.liveness.length ≤ i
  · obtain rfl := Option.some.inj ((zeroFill_liveness_unset hn hi).symm.trans he)
    exact ⟨List.length_replicate, fun _ => ⟨rfl, rfl, fun b => zeroLiveness_expected⟩,
      fun j b _ hb => zeroLiveness_expected (List.mem_of_getElem? hb)⟩
  · obtain ⟨hcount, hgiven⟩ := not_or.1 hn
    have hset := zeroFill_liveness_set (not_le.1 hcount) hi (List.getElem?_eq_getElem (not_le.1 hgiven))
    obtain rfl := Option.some.inj (hset.symm.trans he)
    exact ⟨zeroPad_length _ _, fun h => absurd h hn, fun j b => fillLiveness_expected_beyond⟩

end Sys2Proof.Machine
end

section
/-! The event trace is a legal exchange of commands, requests, completions and responses along every run
(20_memory.md R62, 42_lifecycle.md R150, R151). -/

namespace Sys2Proof.Machine

/-! ## Where the registers say the trace stands -/

section
variable {s : State}

/-- A block that is not busy stands ready for a command. -/
theorem exchange_ready_iff : s.exchange = .ready ↔ s.phase.isBusy = false := by
  cases hb : s.phase.isBusy <;> cases hp : s.pend <;> simp [State.exchange, hb, hp]

/-- A block with a request outstanding waits, provided that it is busy. -/
theorem exchange_waiting_iff (h : s.pend = true → s.phase.isBusy = true) : s.exchange = .waiting ↔ s.pend = true := by
  cases hb : s.phase.isBusy <;> cases hp : s.pend <;> simp_all [State.exchange]

/-- A busy block with no request outstanding stands within a command. -/
theorem exchange_busy (hb : s.phase.isBusy = true) (hp : s.pend = false) : s.exchange = .busy := by
  simp [State.exchange, hb, hp]

theorem busy_of_canPush (h : s.canPush = true) : s.phase.isBusy = true ∧ s.pend = false := by
  obtain ⟨hq | hq, hp⟩ := canPush_iff.1 h <;> exact ⟨by rw [hq]; rfl, hp⟩

theorem busy_of_canScript (h : s.canScript = true) : s.phase.isBusy = true ∧ s.pend = false := by
  obtain ⟨hq | hq, hp⟩ := canScript_iff.1 h <;> exact ⟨by rw [hq]; rfl, hp⟩

end

/-! ## What keeps the trace legal -/

/-- The part of the invariant that speaks of the trace: a request is outstanding only in a busy phase, and the trace is
a legal exchange that ends where the registers say (20_memory.md R62, 42_lifecycle.md R151, R165). Steps keep it by
itself. -/
structure State.TraceFits (s : State) : Prop where
  pendBusy : s.pend = true → s.phase.isBusy = true
  traceOk : exchangeOf s.trace = some s.exchange

theorem traceFits_of_inv {s : State} (h : s.Inv) : s.TraceFits := ⟨h.pendBusy, h.traceOk⟩

section
variable {tr : List Event} {t : State} (htr : exchangeOf tr = some .busy)
include htr

/-- Within a command the block may go on without an event. -/
theorem traceFits_continued (h : t.trace = tr) (hb : t.phase.isBusy = true) (hp : t.pend = false) : t.TraceFits where
  pendBusy _ := hb
  traceOk := by rw [h, htr, exchange_busy hb hp]

/-- Within a command the block may issue a request, which is then outstanding. -/
theorem traceFits_issued {p : Request} (h : t.trace = tr ++ [.req p]) (hb : t.phase.isBusy = true)
    (hp : t.pend = true) : t.TraceFits where
  pendBusy _ := hb
  traceOk := by rw [h, exchangeOf_append, htr, (exchange_waiting_iff fun _ => hb).2 hp]; rfl

/-- Within a command the block may answer, after which it is not busy. -/
theorem traceFits_answered {st : Byte} {d : Option Descriptor} (h : t.trace = tr ++ [.rsp st d])
    (hb : t.phase.isBusy = false) (hp : t.pend = false) : t.TraceFits where
  pendBusy hpend := by simp [hp] at hpend
  traceOk := by rw [h, exchangeOf_append, htr, exchange_ready_iff.2 hb]; rfl

end

/-! ## Steps and runs -/

/-- ENV completes an outstanding request only; SEQ, with none outstanding, issues, answers or goes on. -/
theorem own_traceFits {s t : State} (h : Own s t) (hs : s.TraceFits) : t.TraceFits := by
  have hbusy (hq : s.phase.isBusy = true ∧ s.pend = false) : exchangeOf s.trace = some .busy :=
    hs.traceOk.trans (congrArg some (exchange_busy hq.1 hq.2))
  cases h with
  | done hp =>
    have hwait : exchangeOf s.trace = some .waiting :=
      hs.traceOk.trans (congrArg some ((exchange_waiting_iff hs.pendBusy).2 hp))
    have hdone : exchangeOf (envDone s).trace = some .busy := by rw [envDone_trace, exchangeOf_append, hwait]; rfl
    exact traceFits_continued hdone rfl (hs.pendBusy hp) rfl
  | wait => exact hs
  | pushCompleted hc | entryFaulted _ _ hc =>
    have hq := busy_of_canPush hc
    exact traceFits_answered (hbusy hq) rfl rfl hq.2
  | stepFaulted _ _ hc =>
    have hq := busy_of_canScript hc
    exact traceFits_answered (hbusy hq) rfl rfl hq.2
  | scriptCompleted hdown hp => exact traceFits_answered (hbusy ⟨by rw [hdown]; rfl, hp⟩) rfl rfl hp
  | entryIssued _ _ hc =>
    have hq := busy_of_canPush hc
    exact traceFits_issued (hbusy hq) rfl hq.1 rfl
  | stepIssued _ _ hc =>
    have hq := busy_of_canScript hc
    exact traceFits_issued (hbusy hq) rfl hq.1 rfl
  | pushToScript hc =>
    have hq := busy_of_canPush hc
    exact traceFits_continued (hbusy hq) rfl rfl hq.2
  | entrySkipped _ hc =>
    have hq := busy_of_canPush hc
    exact traceFits_continued (hbusy hq) rfl hq.1 hq.2
  | scriptToPush hup hp => exact traceFits_continued (hbusy ⟨by rw [hup]; rfl, hp⟩) rfl rfl hp

/-- An accept step begins a command, and may answer it at once (42_lifecycle.md R150 to R152; log entry 8). -/
theorem accept_traceFits {s t : State} {c : CmdWord} (h : Accept s c t) (ha : s.canAccept = true)
    (hs : s.TraceFits) : t.TraceFits := by
  obtain ⟨hphase, hp⟩ := canAccept_iff.1 ha
  have hready : s.exchange = .ready := exchange_ready_iff.2 (by obtain hq | hq := hphase <;> rw [hq] <;> rfl)
  have hcmd : exchangeOf (logEvent (.cmd c) s).trace = some .busy := by
    rw [logEvent_trace, exchangeOf_append, hs.traceOk, hready]; rfl
  cases h with
  | faulted | bad => exact traceFits_answered hcmd rfl rfl hp
  | command i t _ _ hc =>
    cases hc with
    | configure | describe | notConfigured | invalidTransition => exact traceFits_answered hcmd rfl rfl hp
    | powerUp | suspend => exact traceFits_continued hcmd rfl rfl hp

/-- Every step keeps the trace a legal exchange; reset begins a new one (log entry 7). -/
theorem step_traceFits {s t : State} (hs : s.TraceFits) (h : step s = .next t) : t.TraceFits := by
  have hrest (rest : List Input) : State.TraceFits { s with inputs := rest } := ⟨hs.pendBusy, hs.traceOk⟩
  obtain ⟨rest, ⟨-, rfl⟩ | rfl | ho | ⟨c, -, hacc, ha⟩⟩ := step_kinds h
  · exact ⟨nofun, rfl⟩
  · exact hrest rest
  · exact own_traceFits ho (hrest rest)
  · exact accept_traceFits ha hacc (hrest rest)

/-- What every step keeps, every run keeps. -/
theorem run_keeps {P : State → Prop} (hstep : ∀ {s t}, P s → step s = .next t → P t) {n : Nat} {s t : State}
    (hs : P s) (h : core.run n s = .next t) : P t := by
  induction n generalizing s with
  | zero => cases h; exact hs
  | succ n ih =>
    simp only [Host.Core.run] at h
    split at h
    · exact ih (hstep hs ‹_›) h
    · cases h
    · cases h

/-- Settles O59: the invariant's part about the trace holds along the run, and the exchange it ends in is the one that
`PHASE` and `PEND` say. -/
theorem everyRunHasALegalTrace : Obligations.EveryRunHasALegalTrace := by
  intro n s t hs h
  have ht : t.TraceFits := run_keeps step_traceFits (traceFits_of_inv hs) h
  exact ⟨t.exchange, ht.traceOk, exchange_ready_iff, exchange_waiting_iff ht.pendBusy⟩

end Sys2Proof.Machine
end

section
/-! The decoders, kind by kind: table entries (30_encoding.md R73, R79), script steps (R75) and host commands (R77), and
the statements about them. -/

namespace Sys2Proof

/-! ## Table entries -/

/-- The three reserved opcodes of WF2, compared pairwise (30_encoding.md R80). -/
theorem ReservedOps.distinct_iff {ops : ReservedOps} :
    ops.distinct = true ↔ ops.delay ≠ ops.udelay ∧ ops.delay ≠ ops.fin ∧ ops.udelay ≠ ops.fin := by
  simp [ReservedOps.distinct, and_assoc]

theorem ReservedOps.holds_iff {ops : ReservedOps} {op : U32} :
    ops.holds op = true ↔ op = ops.delay ∨ op = ops.udelay ∨ op = ops.fin := by
  simp [ReservedOps.holds, or_assoc]

section
variable {ops : ReservedOps} {e f : Entry}

theorem decodeEntry_of_delay (h : e.opcode = ops.delay) : decodeEntry ops e = .delay e.count := if_pos h

theorem decodeEntry_of_udelay (hd : ops.distinct = true) (h : e.opcode = ops.udelay) :
    decodeEntry ops e = .udelay e.count := by
  obtain ⟨hdu, -, -⟩ := ReservedOps.distinct_iff.1 hd
  rw [decodeEntry, if_neg (h.trans_ne hdu.symm), if_pos h]

theorem decodeEntry_of_fin (hd : ops.distinct = true) (h : e.opcode = ops.fin) :
    decodeEntry ops e = .endMark := by
  obtain ⟨-, hdf, huf⟩ := ReservedOps.distinct_iff.1 hd
  rw [decodeEntry, if_neg (h.trans_ne hdf.symm), if_neg (h.trans_ne huf.symm), if_pos h]

theorem decodeEntry_of_write (hd : e.opcode ≠ ops.delay) (hu : e.opcode ≠ ops.udelay) (hf : e.opcode ≠ ops.fin) :
    decodeEntry ops e = .write e.opcode e.count e.sent := by
  rw [decodeEntry, if_neg hd, if_neg hu, if_neg hf]

/-- The bytes a WRITE sends are its parameters below its count; no later byte decides them (20_memory.md R55). -/
theorem Entry.sent_congr (hc : e.count = f.count)
    (hp : ∀ j (h : j < 64), j < e.count.toNat → e.params[j] = f.params[j]) : e.sent = f.sent := by
  apply List.ext_getElem
  · simp [Entry.sent, hc]
  · intro j hj _
    have hj' : j < e.count.toNat ∧ j < 64 := by simpa [Entry.sent] using hj
    simpa [Entry.sent] using hp j hj'.2 hj'.1

end

/-- Settles O6: one equation of the decoder per kind, the reserved opcodes being distinct. -/
theorem entryKindIsChosenByTheOpcode : Obligations.EntryKindIsChosenByTheOpcode := fun _ _ hd =>
  ⟨decodeEntry_of_delay, decodeEntry_of_udelay hd, decodeEntry_of_fin hd, decodeEntry_of_write⟩

/-- Settles O7: both entries are of the kind their common opcode chooses, and that kind reads the count unless it is
END, and the bytes below the count only if it is WRITE. -/
theorem ignoredEntryBytesDecideNothing : Obligations.IgnoredEntryBytesDecideNothing := by
  intro ops e f hop hcount hparams hd
  obtain ⟨-, hdf, huf⟩ := ReservedOps.distinct_iff.1 hd
  obtain ⟨h, he⟩ | ⟨-, h, he⟩ | ⟨-, -, h, he⟩ | ⟨h1, h2, h3, he⟩ := decodeEntry_cases ops e
  · have hc := hcount.resolve_left (h.trans_ne hdf)
    rw [he, decodeEntry_of_delay (hop ▸ h), hc]
  · have hc := hcount.resolve_left (h.trans_ne huf)
    rw [he, decodeEntry_of_udelay hd (hop ▸ h), hc]
  · rw [he, decodeEntry_of_fin hd (hop ▸ h)]
  · have hc := hcount.resolve_left h3
    have hnot : ¬ ops.holds e.opcode = true := by simp [ReservedOps.holds_iff, h1, h2, h3]
    have hs := Entry.sent_congr hc (hparams.resolve_left hnot)
    rw [he, decodeEntry_of_write (hop ▸ h1) (hop ▸ h2) (hop ▸ h3), hop, hc, hs]

/-! ## Script steps -/

theorem decodeStep_sReset (a b c : U32) :
    decodeStep ⟨0, a, b, c⟩ =
      if a.toNat ≤ 1 then .ok (.sReset (a.getLsbD 0)) else .error .levelOutOfRange := rfl

theorem decodeStep_sBias (a b c : U32) :
    decodeStep ⟨1, a, b, c⟩ =
      if a.toNat ≤ 1 then .ok (.sBias (a.getLsbD 0) b c) else .error .levelOutOfRange := rfl

theorem decodeStep_sMdelay (a b c : U32) : decodeStep ⟨2, a, b, c⟩ = .ok (.sMdelay a) := rfl

theorem decodeStep_sUdelay (a b c : U32) : decodeStep ⟨3, a, b, c⟩ = .ok (.sUdelay a) := rfl

/-- A kind of 4 or above is no script step (30_encoding.md R75). -/
theorem decodeStep_reserved {st : ScriptStep} (h : 3 < st.kind.toNat) :
    decodeStep st = .error .reservedKind := by
  have hne {k : U32} (hk : k.toNat ≤ 3) : st.kind ≠ k := by
    rintro rfl
    omega
  rw [decodeStep, if_neg (hne (by decide)), if_neg (hne (by decide)), if_neg (hne (by decide)),
    if_neg (hne (by decide))]

/-- Settles O8: one equation of the decoder per kind, and the test of `a` where S_RESET and S_BIAS make it. -/
theorem scriptStepKinds : Obligations.ScriptStepKinds := by
  intro a b c k
  have hreset := decodeStep_sReset a b c
  have hbias := decodeStep_sBias a b c
  exact ⟨fun ha => ⟨hreset.trans (if_pos ha), hbias.trans (if_pos ha)⟩,
    fun ha => ⟨hreset.trans (if_neg ha.not_ge), hbias.trans (if_neg ha.not_ge)⟩,
    decodeStep_sMdelay a b c, decodeStep_sUdelay a b c, fun hk => decodeStep_reserved hk⟩

/-! ## Host commands -/

/-- The code of a word is its low byte (30_encoding.md R77). -/
@[simp] theorem cmdCode_append (top : BitVec 1) (caps : CapBits) (code : Byte) :
    cmdCode (top ++ caps ++ code) = code := by
  apply BitVec.eq_of_getLsbD_eq
  intro i hi
  rw [cmdCode, BitVec.getLsbD_extractLsb', BitVec.getLsbD_append]
  simp [hi]

/-- The payload of a word is the seven bits above its low byte (30_encoding.md R77). -/
@[simp] theorem cmdCaps_append (top : BitVec 1) (caps : CapBits) (code : Byte) :
    cmdCaps (top ++ caps ++ code) = caps := by
  apply BitVec.eq_of_getLsbD_eq
  intro i hi
  rw [cmdCaps, BitVec.getLsbD_extractLsb', BitVec.getLsbD_append, BitVec.getLsbD_append]
  simp [hi]

/-- Settles O9: the decoder reads the code and the payload, and no other bit of the word. -/
theorem hostCommandFields : Obligations.HostCommandFields := by
  intro top caps code
  rw [decodeCommand, cmdCode_append, cmdCaps_append]

end Sys2Proof
end

section
/-! The binary image of a table (30_encoding.md R72): where each byte of an entry stands, and what reading it back
gives. -/

namespace Sys2Proof

/-! ## The image of one entry -/

section
variable (e : Entry)

/-- Bytes 0 to 3 hold the opcode, little-endian. -/
theorem Entry.toBytes_opcode {j : Nat} (hj : j < 4) :
    e.toBytes[j]? = some (e.opcode.extractLsb' (8 * j) 8) := by
  match j, hj with
  | 0, _ | 1, _ | 2, _ | 3, _ => rfl

/-- Byte 4 holds the count. -/
theorem Entry.toBytes_count : e.toBytes[4]? = some e.count := rfl

/-- From byte 5 on stand the parameters and then three zeros. -/
theorem Entry.toBytes_tail (j : Nat) : e.toBytes[5 + j]? = (e.params.toList ++ [0#8, 0#8, 0#8])[j]? := by
  rw [Nat.add_comm]
  rfl

theorem Entry.toBytes_params {j : Nat} (hj : j < 64) : e.toBytes[5 + j]? = some e.params[j] := by
  rw [Entry.toBytes_tail, List.getElem?_append_left (by simpa)]
  simp [hj]

theorem Entry.toBytes_padding {j : Nat} (hj : j < 3) : e.toBytes[69 + j]? = some 0 := by
  rw [show 69 + j = 5 + (64 + j) by omega, Entry.toBytes_tail, List.getElem?_append_right (by simp)]
  match j, hj with
  | 0, _ | 1, _ | 2, _ => simp

end

/-- An entry is read from the first 69 bytes of its image. -/
theorem Entry.ofBytes_cons (b0 b1 b2 b3 k : Byte) {ps pad : List Byte} (hps : ps.length = 64) (hpad : pad.length = 3) :
    Entry.ofBytes (b0 :: b1 :: b2 :: b3 :: k :: (ps ++ pad)) = some ⟨le32 b0 b1 b2 b3, k, paramsOf ps⟩ := by
  rw [Entry.ofBytes, if_pos (by simp [hps, hpad]), List.take_left' hps]

/-- The padding bytes of an image are ignored on read. -/
theorem Entry.ofBytes_padding {bs pad pad' : List Byte} (hbs : bs.length = 69) (hpad : pad.length = 3)
    (hpad' : pad'.length = 3) : Entry.ofBytes (bs ++ pad) = Entry.ofBytes (bs ++ pad') := by
  match bs, hbs with
  | b0 :: b1 :: b2 :: b3 :: k :: ps, hbs =>
    have hps : ps.length = 64 := by simpa using hbs
    exact (Entry.ofBytes_cons b0 b1 b2 b3 k hps hpad).trans (Entry.ofBytes_cons b0 b1 b2 b3 k hps hpad').symm

end Sys2Proof

namespace Sys2Proof.Machine

/-! ## The image of a table -/

@[simp] theorem tableImage_cons (e : Entry) (tab : List Entry) :
    tableImage (e :: tab) = e.toBytes ++ tableImage tab := rfl

@[simp] theorem tableImage_length (tab : List Entry) : (tableImage tab).length = 72 * tab.length := by
  induction tab with
  | nil => rfl
  | cons e tab ih =>
    rw [tableImage_cons, List.length_append, Entry.toBytes_length, ih, List.length_cons]
    omega

/-- The 72 bytes at offset `72 * i` are entry `i`'s image. -/
theorem tableImage_getElem? {tab : List Entry} {i j : Nat} {e : Entry} (he : tab[i]? = some e) (hj : j < 72) :
    (tableImage tab)[72 * i + j]? = e.toBytes[j]? := by
  induction tab generalizing i with
  | nil => cases he
  | cons d tab ih =>
    cases i with
    | zero =>
      obtain rfl : d = e := by simpa using he
      rw [tableImage_cons, Nat.mul_zero, Nat.zero_add, List.getElem?_append_left (by simpa)]
    | succ i =>
      rw [tableImage_cons, List.getElem?_append_right (by simp; omega), Entry.toBytes_length,
        show 72 * (i + 1) + j - 72 = 72 * i + j by omega, ih he]

/-- A table's image reads back as the table, whatever follows it. -/
theorem loadTable_tableImage (tab : List Entry) (rest : List Byte) :
    loadTable tab.length (tableImage tab ++ rest) = some tab := by
  induction tab with
  | nil => rfl
  | cons e tab ih =>
    simp only [List.length_cons, tableImage_cons, List.append_assoc, loadTable, Entry.ofBytes_toBytes,
      List.drop_left' e.toBytes_length, ih]

/-- Settles O10: a byte of the image is a byte of one entry's image, whose fields stand where R72 puts them. -/
theorem tableImageLayout : Obligations.TableImageLayout := by
  refine ⟨fun tab i e he => ⟨fun j hj => ?_, ?_, fun j hj => ?_, fun j hj => ?_⟩, tableImage_length,
    loadTable_tableImage, fun _ _ _ => Entry.ofBytes_padding⟩
  · rw [tableImage_getElem? he (by omega), e.toBytes_opcode hj]
  · rw [tableImage_getElem? he (by omega), e.toBytes_count]
  · rw [Nat.add_assoc, tableImage_getElem? he (by omega), e.toBytes_params hj]
  · rw [Nat.add_assoc, tableImage_getElem? he (by omega), e.toBytes_padding hj]

end Sys2Proof.Machine
end

section
/-! What each of the checks WF1 to WF6 of a configuration says (30_encoding.md R80). -/

namespace Sys2Proof.Machine

theorem wf1_iff {c : Cfg} :
    wf1 c = true ↔ ∀ e, e ∈ c.initTable ∨ e ∈ c.suspTable →
      e.opcode ≠ c.ops.delay → e.opcode ≠ c.ops.udelay → e.opcode ≠ c.ops.fin → e.count.toNat ≤ 64 := by
  simp only [wf1, ← List.all_append, List.all_eq_true, List.mem_append, entryFits_iff]

theorem wf2_iff {c : Cfg} :
    wf2 c = true ↔ c.ops.delay ≠ c.ops.udelay ∧ c.ops.delay ≠ c.ops.fin ∧ c.ops.udelay ≠ c.ops.fin :=
  ReservedOps.distinct_iff

theorem wf3_iff {c : Cfg} :
    wf3 c = true ↔ c.initCount.toNat ≤ c.initTable.length ∧ c.suspCount.toNat ≤ c.suspTable.length ∧
      c.initTable.length ≤ 2 ^ 32 - 1 ∧ c.suspTable.length ≤ 2 ^ 32 - 1 := by
  simp only [wf3, Bool.and_eq_true, decide_eq_true_eq, and_assoc]

/-- Kinds 0 and 1 are those not above 1, and only they have their `a` checked. -/
theorem stepFits_iff {st : ScriptStep} :
    stepFits st = true ↔ st.kind.toNat ≤ 3 ∧ (st.kind = 0 ∨ st.kind = 1 → st.a.toNat ≤ 1) := by
  have hlow : (st.kind = 0 ∨ st.kind = 1) ↔ ¬ 1 < st.kind.toNat := by bv_omega
  simp only [stepFits, Bool.and_eq_true, Bool.or_eq_true, decide_eq_true_eq, hlow, Decidable.or_iff_not_imp_left]

theorem wf4_iff {c : Cfg} :
    wf4 c = true ↔ ∀ st, st ∈ c.upScript ∨ st ∈ c.downScript →
      st.kind.toNat ≤ 3 ∧ (st.kind = 0 ∨ st.kind = 1 → st.a.toNat ≤ 1) := by
  simp only [wf4, ← List.all_append, List.all_eq_true, List.mem_append, stepFits_iff]

theorem wf5_iff {c : Cfg} :
    wf5 c = true ↔ (c.descriptor.livenessCount.getD 0).toNat ≤ c.esdMax ∧
      ∀ e, e ∈ c.descriptor.liveness → e.count.toNat ≤ c.livenessBytesMax := by
  simp only [wf5, Bool.and_eq_true, List.all_eq_true, decide_eq_true_eq]

theorem wf6_iff {c : Cfg} :
    wf6 c = true ↔ c.upScript.length ≤ 2 ^ 32 - 1 ∧ c.downScript.length ≤ 2 ^ 32 - 1 := by
  simp only [wf6, Bool.and_eq_true, decide_eq_true_eq]

/-- Settles O12: the configuration passes when the six checks do, and each of them says its clause. -/
theorem configurationChecks : Obligations.ConfigurationChecks := by
  intro c
  rw [cfgCheck_none_iff, wf1_iff, wf2_iff, wf3_iff, wf4_iff, wf5_iff, wf6_iff]

end Sys2Proof.Machine
end

section
/-! What an entry in the written form of a table stands for (30_encoding.md R83). -/

namespace Sys2Proof.Machine

section
variable {ops : ReservedOps} {t : EntryText} {op : U32} (hop : t.op.value ops = some op)
include hop

/-- A writable entry stands for the record of its opcode, its count and its bytes. -/
theorem EntryText.entry_eq_some (hlen : t.bytes.length ≤ 64)
    (hfit : ops.holds op = true ∨ t.bytes.length ≤ t.count.toNat) :
    t.entry ops = some ⟨op, t.count, paramsOf t.bytes⟩ := by
  have hnot : ¬ (ops.holds op = false ∧ t.count.toNat < t.bytes.length) := by
    rintro ⟨hw, hlt⟩
    obtain hr | hle := hfit
    · simp [hw] at hr
    · omega
  simp only [EntryText.entry, hop]
  rw [if_neg (by omega), if_neg hnot]

/-- More than 64 bytes, or for a WRITE more than `count`, are not writable. -/
theorem EntryText.entry_eq_none
    (hbad : 64 < t.bytes.length ∨ (ops.holds op = false ∧ t.count.toNat < t.bytes.length)) :
    t.entry ops = none := by
  simp only [EntryText.entry, hop]
  split
  · rfl
  · exact if_pos (hbad.resolve_left ‹_›)

end

/-- Settles O60: the record holds the written bytes as its parameter field, which is zero beyond them. -/
theorem writtenEntryStandsForItsRecord : Obligations.WrittenEntryStandsForItsRecord := by
  intro ops t op hop
  refine ⟨fun hlen hfit => ?_, EntryText.entry_eq_none hop⟩
  exact ⟨_, EntryText.entry_eq_some hop hlen hfit, rfl, rfl, paramsOf_getElem t.bytes hlen⟩

end Sys2Proof.Machine
end

section
/-! The four kinds of table entry as whole next states (40_table_interpreter.md R104 to R107), and what they leave
unchanged (R103, 60_exceptions.md R196). -/

namespace Sys2Proof.Machine

/-! ## The requests of the waiting entries -/

theorem requestOf_delay_short {k : Byte} (h : k.toNat ≤ 10) (f : Bool) :
    requestOf f (.delay k) = some (.delayUs (BitVec.ofNat 32 (k.toNat * 1000))) := by
  rw [requestOf, if_pos h]

theorem requestOf_delay_long {k : Byte} (h : 10 < k.toNat) (f : Bool) :
    requestOf f (.delay k) = some (.delayMs (BitVec.ofNat 32 k.toNat)) := by
  rw [requestOf, if_neg h.not_ge, BitVec.ofNat_toNat]

theorem requestOf_udelay (k : Byte) (f : Bool) :
    requestOf f (.udelay k) = some (.delayUs (BitVec.ofNat 32 k.toNat)) := by
  rw [requestOf, BitVec.ofNat_toNat]

/-! ## What an entry does in a push step -/

/-- The record of a fault that a push step raises names the entry's index (60_exceptions.md R195). -/
theorem faultRecord_of_canPush {s : State} (h : s.canPush = true) (p : Request) :
    faultRecord p s = ⟨s.curOp, s.phase.code, s.idx, BitVec.ofNat 3 p.kind⟩ := by
  rw [faultRecord, State.liveIndex, if_pos (isPush_iff.2 (canPush_iff.1 h).1)]

section
variable {i : Instr} {s : State} (hi : i.format = .e) (hs : s.canPush = true)
include hi hs

/-- An entry whose capability is present issues its request and advances; nothing else is written (R101, R103). -/
theorem exec_entry_issues {p : Request} (hq : requestOf s.force i = some p) (hc : s.hasCap p = true) :
    exec i s = .next { s with req := p, pend := true, idx := s.idx + 1, trace := s.trace ++ [.req p] } := by
  rw [exec_entry hi, inPush_of_canPush hs, hq, entryBody, issue_present hc]
  rfl

/-- An entry whose capability is missing takes the fault, with `IDX` unchanged (60_exceptions.md R195, R196). -/
theorem exec_entry_faults {p : Request} (hq : requestOf s.force i = some p) (hc : s.hasCap p = false) :
    exec i s = .next { s with
      fault := true, faultCode := 0x01, faultInfo := ⟨s.curOp, s.phase.code, s.idx, BitVec.ofNat 3 p.kind⟩
      status := 0x10, curOp := 0, phase := .faulted, trace := s.trace ++ [.rsp 0x10 none] } := by
  rw [exec_entry hi, inPush_of_canPush hs, hq, entryBody, issue_missing hc, faultRecord_of_canPush hs]
  rfl

/-- An entry without a request only advances (R107). -/
theorem exec_entry_advances (hq : requestOf s.force i = none) : exec i s = .next { s with idx := s.idx + 1 } := by
  rw [exec_entry hi, inPush_of_canPush hs, hq]
  rfl

end

/-- THE INVERSION OF AN ENTRY: if it answers a next state, it advanced, issued its request, or took the fault. -/
theorem exec_entry_cases {i : Instr} {s t : State} (hi : i.format = .e) (h : exec i s = .next t) :
    (requestOf s.force i = none ∧ t = advanceIdx s) ∨
      ∃ p, requestOf s.force i = some p ∧
        ((s.hasCap p = true ∧ t = advanceIdx (putRequest p s)) ∨
          (s.hasCap p = false ∧ t = takeFault (faultRecord p s) s)) := by
  rw [exec_entry hi] at h
  obtain ⟨-, rfl⟩ := inPush_next h
  cases hq : requestOf s.force i with
  | none => exact .inl ⟨rfl, rfl⟩
  | some p => exact .inr ⟨p, rfl, issue_cases p advanceIdx s⟩

/-! ## The statements -/

/-- Settles O14: a WRITE issues its one request when CAPS[4] is 1, and takes the fault otherwise. -/
theorem writeIssuesTheBusWriteOrFaults : Obligations.WriteIssuesTheBusWriteOrFaults := by
  refine ⟨fun _ _ => decodeEntry_of_write, fun op k ps s hphase hpend => ?_⟩
  have hs : s.canPush = true := canPush_iff.2 ⟨hphase, hpend⟩
  have hq : requestOf s.force (.write op k ps) = some (.writeCommand op k ps s.force) := rfl
  exact ⟨exec_entry_issues rfl hs hq, exec_entry_faults rfl hs hq⟩

/-- Settles O15: the threshold decides which wait a DELAY requests, and with it the capability it needs. -/
theorem delayIssuesByTheThresholdOrFaults : Obligations.DelayIssuesByTheThresholdOrFaults := by
  refine ⟨fun _ _ => decodeEntry_of_delay, fun k s hphase hpend => ?_⟩
  have hs : s.canPush = true := canPush_iff.2 ⟨hphase, hpend⟩
  exact ⟨fun hk => exec_entry_issues rfl hs (requestOf_delay_short hk _),
    fun hk => exec_entry_issues rfl hs (requestOf_delay_long hk _),
    fun hk => exec_entry_faults rfl hs (requestOf_delay_short hk _),
    fun hk => exec_entry_faults rfl hs (requestOf_delay_long hk _)⟩

/-- Settles O16: a UDELAY requests its count in microseconds when CAPS[3] is 1, and takes the fault otherwise. -/
theorem udelayIssuesMicrosecondsOrFaults : Obligations.UdelayIssuesMicrosecondsOrFaults := by
  refine ⟨fun _ _ => decodeEntry_of_udelay, fun k s hphase hpend => ?_⟩
  have hs : s.canPush = true := canPush_iff.2 ⟨hphase, hpend⟩
  exact ⟨exec_entry_issues rfl hs (requestOf_udelay k _), exec_entry_faults rfl hs (requestOf_udelay k _)⟩

/-- Settles O17: END has no request, so no capability decides what it does. -/
theorem endOnlyAdvances : Obligations.EndOnlyAdvances :=
  ⟨fun _ _ => decodeEntry_of_fin, fun _ hphase hpend => exec_entry_advances rfl (canPush_iff.2 ⟨hphase, hpend⟩) rfl⟩

/-- Settles O39, by the three things an entry can do; END has no request, so it can only advance. -/
theorem entryFrame : Obligations.EntryFrame := by
  intro i s t hi h
  have hend : i = .endMark → requestOf s.force i = none := by rintro rfl; rfl
  obtain ⟨-, rfl⟩ | ⟨p, hq, hdone⟩ := exec_entry_cases hi h
  · exact ⟨⟨rfl, rfl, rfl, rfl, rfl, rfl, rfl, rfl, rfl⟩, .inl ⟨rfl, rfl, rfl, rfl, rfl, rfl, rfl⟩,
      fun _ => ⟨rfl, rfl, rfl⟩, [], by simp, by simp⟩
  · have hne : i ≠ .endMark := fun h => absurd (hq.symm.trans (hend h)) nofun
    obtain ⟨-, rfl⟩ | ⟨-, rfl⟩ := hdone
    · exact ⟨⟨rfl, rfl, rfl, rfl, rfl, rfl, rfl, rfl, rfl⟩, .inl ⟨rfl, rfl, rfl, rfl, rfl, rfl, rfl⟩,
        fun h => absurd h hne, [.req p], by simp, rfl⟩
    · exact ⟨⟨rfl, rfl, rfl, rfl, rfl, rfl, rfl, rfl, rfl⟩, .inr ⟨rfl, rfl, rfl, rfl⟩,
        fun h => absurd h hne, [.rsp stFaultMissingCap none], by simp, rfl⟩

end Sys2Proof.Machine
end

section
/-! The push step (40_table_interpreter.md R102, R109), and the requests that become outstanding (R101). -/

namespace Sys2Proof.Machine

/-! ## Which step a push takes -/

/-- The selected table, as 10_state.md R28 numbers the two. -/
theorem tableRead_eq (c : Cfg) (t : Table) (n : Nat) :
    tableRead c t n = (if t = .init then c.initTable else c.suspTable)[n]? := by
  cases t <;> rfl

section
variable {s : State}

theorem pushStep_of_entry {e : Entry} (hlt : s.idx.toNat < s.count.toNat)
    (he : tableRead s.cfg s.tsel s.idx.toNat = some e) : pushStep s = exec (decodeEntry s.cfg.ops e) s := by
  rw [pushStep, if_neg hlt.not_ge, he]

theorem pushStep_of_end (h : s.count.toNat ≤ s.idx.toNat) : pushStep s = .next (pushDone s) := if_pos h

theorem pushDone_of_init (h : s.tsel = .init) : pushDone s = complete .active s := by rw [pushDone, h]

theorem pushDone_of_susp (h : s.tsel = .susp) : pushDone s = startScript .pwrDown s := by rw [pushDone, h]

/-- With a run move the block takes its own step, and the move is consumed (log entry 5). -/
theorem step_of_run {rest : List Input} (hc : cfgCheck s.cfg = none) (hi : s.inputs = .run :: rest) :
    step s = ownStep { s with inputs := rest } := by
  simp only [step, checkedStep, hc, takeMove, hi]

/-- In a push phase with no request outstanding, and no move but HOST's, the step is the push step. -/
theorem step_eq_pushStep (hlive : s.live) (hs : s.canPush = true) (hi : onlyHost s.inputs) :
    step s = pushStep s := by
  obtain ⟨hcfg, hregs⟩ := hlive
  rw [step_eq_ownStep hcfg hi (.inl (canAccept_of_busy (busy_of_canPush hs).1)), ownStep_push hs hregs]

end

/-- Settles O28: each of the three moves lets the push step happen, which reads entry IDX. -/
theorem pushStepRunsTheDecodedEntry : Obligations.PushStepRunsTheDecodedEntry := by
  intro s e hlive hphase hpend hlt he
  rw [← tableRead_eq] at he
  have hs : s.canPush = true := canPush_iff.2 ⟨hphase, hpend⟩
  have hheld (hi : onlyHost s.inputs) : step s = exec (decodeEntry s.cfg.ops e) s := by
    rw [step_eq_pushStep hlive hs hi, pushStep_of_entry hlt he]
  refine ⟨fun hi => hheld (by rw [hi]; trivial), fun rest hi => ?_, fun _ _ hi => hheld (by rw [hi]; trivial)⟩
  obtain ⟨hcfg, hregs⟩ := hlive
  rw [step_of_run hcfg hi, ownStep_push (s := { s with inputs := rest }) hs hregs,
    pushStep_of_entry (s := { s with inputs := rest }) hlt he]

/-- Settles O32: the push step at the end of the table is PushDone, which asks for TSEL alone. -/
theorem pushDoneEndsThePush : Obligations.PushDoneEndsThePush := by
  intro s hlive hphase hpend hend hi
  have hstep : step s = .next (pushDone s) := by
    rw [step_eq_pushStep hlive (canPush_iff.2 ⟨hphase, hpend⟩) hi, pushStep_of_end hend]
  exact ⟨fun h => hstep.trans (congrArg _ (pushDone_of_init h)), fun h => hstep.trans (congrArg _ (pushDone_of_susp h))⟩

/-! ## Requests that become outstanding -/

/-- Of the own steps only those that issue make a request outstanding, under their guards (R101). -/
theorem own_issues {s t : State} (h : Own s t) (hs : s.pend = false) (ht : t.pend = true) :
    s.hasCap t.req = true ∧ t.trace = s.trace ++ [.req t.req] ∧ s.phase.isBusy = true ∧ t.phase = s.phase := by
  cases h with
  | entryIssued e p hc _ _ _ _ hcap => exact ⟨hcap, rfl, (busy_of_canPush hc).1, rfl⟩
  | stepIssued st p hc _ _ _ hcap => exact ⟨hcap, rfl, (busy_of_canScript hc).1, rfl⟩
  | done => simp at ht
  | wait | pushCompleted | pushToScript | entryFaulted | entrySkipped | scriptToPush | scriptCompleted
  | stepFaulted => exact absurd (hs.symm.trans ht) (by decide)

/-- The kinds of the five requests; kinds 5 and 6 are the read capabilities' (10_state.md R34). -/
theorem Request.kind_le (p : Request) : p.kind ≤ 4 := by cases p <;> simp [Request.kind]

/-- An accept step makes no request. -/
theorem accept_pend {s t : State} {c : CmdWord} (h : Accept s c t) : t.pend = s.pend := by
  cases h with
  | faulted | bad => rfl
  | command i t _ _ hc => cases hc <;> rfl

/-- Settles O48: of the four kinds of step, only an own step makes a request outstanding. -/
theorem requestsNeedTheirCapability : Obligations.RequestsNeedTheirCapability := by
  intro s t h hs ht
  have hsome : t.pend ≠ s.pend := by simp [hs, ht]
  obtain ⟨rest, ⟨-, rfl⟩ | rfl | ho | ⟨c, -, -, ha⟩⟩ := step_kinds h
  · exact absurd hs.symm hsome
  · exact absurd rfl hsome
  · obtain ⟨hcap, htrace, hbusy, hphase⟩ := own_issues ho hs ht
    exact ⟨hcap, t.req.kind_le, htrace, hbusy, hphase⟩
  · exact absurd (accept_pend ha) hsome

end Sys2Proof.Machine
end

section
/-! What a table asks for (40_table_interpreter.md R110 (2) to (4)), and the run of a push that has the capabilities for
it (R110, 20_memory.md R61, R62). -/

namespace Sys2Proof.Machine

/-! ## The requests of a table -/

/-- Whether an entry asks for a write, for a wait, or for anything at all, by its opcode. -/
theorem entry_request_tests {ops : ReservedOps} (hd : ops.distinct = true) (f : Bool) (e : Entry) :
    ((requestOf f (decodeEntry ops e)).map fun p => p.kind == 4).getD false = !ops.holds e.opcode ∧
      ((requestOf f (decodeEntry ops e)).map fun p => p.kind == 2 || p.kind == 3).getD false =
        (e.opcode == ops.delay || e.opcode == ops.udelay) ∧
      (requestOf f (decodeEntry ops e)).isSome = (e.opcode != ops.fin) := by
  obtain ⟨-, hdf, huf⟩ := ReservedOps.distinct_iff.1 hd
  obtain ⟨h, he⟩ | ⟨-, h, he⟩ | ⟨-, -, h, he⟩ | ⟨h1, h2, h3, he⟩ := decodeEntry_cases ops e <;> rw [he]
  · obtain hk | hk := le_or_gt e.count.toNat 10
    · simp [requestOf_delay_short hk, Request.kind, ReservedOps.holds, h, hdf]
    · simp [requestOf_delay_long hk, Request.kind, ReservedOps.holds, h, hdf]
  · simp [requestOf, Request.kind, ReservedOps.holds, h, huf]
  · simp [requestOf, ReservedOps.holds, h, hdf.symm, huf.symm]
  · simp [requestOf, Request.kind, ReservedOps.holds, h1, h2, h3]

/-- Settles O53: counting the requests of a table is counting the entries that make them. -/
theorem tableRequestCounts : Obligations.TableRequestCounts := by
  intro ops f es hd
  simp only [tableRequests, List.countP_filterMap, List.length_filterMap_eq_countP, entry_request_tests hd f, and_self]

theorem tableRequests_cons (ops : ReservedOps) (f : Bool) (e : Entry) (es : List Entry) :
    tableRequests ops f (e :: es) = (requestOf f (decodeEntry ops e)).toList ++ tableRequests ops f es := by
  cases hq : requestOf f (decodeEntry ops e) <;> simp [tableRequests, hq]

@[simp] theorem completedTrace_append (ps qs : List Request) :
    completedTrace (ps ++ qs) = completedTrace ps ++ completedTrace qs := List.flatMap_append

theorem hasCaps_append (s : State) (ps qs : List Request) :
    s.hasCaps (ps ++ qs) = true ↔ s.hasCaps ps = true ∧ s.hasCaps qs = true := by
  simp [State.hasCaps]

/-! ## A push with the entries `es` left -/

/-- The block stands at a push step with exactly the entries `es` left to run, and HOST alone may wait with a move. -/
structure State.PushLeft (s : State) (es : List Entry) : Prop where
  live : s.live
  canPush : s.canPush = true
  host : onlyHost s.inputs
  /-- The push stays within its table (30_encoding.md R80, WF3). -/
  countLe : s.count.toNat ≤ (s.tsel.entries s.cfg).length
  idxLe : s.idx.toNat ≤ s.count.toNat
  left : ((s.tsel.entries s.cfg).take s.count.toNat).drop s.idx.toNat = es

section
variable {s : State}

/-- With no entry left the index is at the count. -/
theorem State.PushLeft.idx_eq_count (h : s.PushLeft []) : s.idx = s.count := by
  have hlen := List.drop_eq_nil_iff.1 h.left
  rw [List.length_take_of_le h.countLe] at hlen
  exact BitVec.eq_of_toNat_eq (le_antisymm h.idxLe hlen)

section
variable {e : Entry} {es : List Entry} (h : s.PushLeft (e :: es))
include h

/-- The first entry left is the one at the index. -/
theorem State.PushLeft.read :
    s.idx.toNat < s.count.toNat ∧ tableRead s.cfg s.tsel s.idx.toNat = some e := by
  have he : ((s.tsel.entries s.cfg).take s.count.toNat)[s.idx.toNat]? = some e := by
    rw [← List.head?_drop, h.left, List.head?_cons]
  have hlt : s.idx.toNat < s.count.toNat := by
    by_contra hge
    simp [List.getElem?_take_eq_none (not_lt.1 hge)] at he
  exact ⟨hlt, by rwa [List.getElem?_take_of_lt hlt] at he⟩

/-- After the first entry the later ones are left, whatever request and events it made. -/
theorem State.PushLeft.advance (r : Request) (tr : List Event) :
    State.PushLeft { s with req := r, idx := s.idx + 1, trace := tr } es := by
  obtain ⟨hlt, -⟩ := h.read
  have hsucc := toNat_succ_of_lt hlt
  refine ⟨h.live, h.canPush, h.host, h.countLe, by simp only [hsucc]; omega, ?_⟩
  simp only [hsucc, ← List.tail_drop, h.left, List.tail_cons]

/-- One entry with its capability present: one step, and one more in which ENV completes its request (R102, R108). -/
theorem State.PushLeft.run_entry (hcaps : s.hasCaps (requestOf s.force (decodeEntry s.cfg.ops e)).toList = true) :
    ∃ r, core.run ((requestOf s.force (decodeEntry s.cfg.ops e)).toList.length + 1) s = .next { s with
      req := r, idx := s.idx + 1
      trace := s.trace ++ completedTrace (requestOf s.force (decodeEntry s.cfg.ops e)).toList } := by
  obtain ⟨hlt, hread⟩ := h.read
  obtain ⟨hcfg, -⟩ := h.live
  have hformat := decodeEntry_format s.cfg.ops e
  have hstep : step s = exec (decodeEntry s.cfg.ops e) s := by
    rw [step_eq_pushStep h.live h.canPush h.host, pushStep_of_entry hlt hread]
  obtain ⟨hbusy, hpend⟩ := busy_of_canPush h.canPush
  cases hq : requestOf s.force (decodeEntry s.cfg.ops e) with
  | none =>
    have hskip := hstep.trans (exec_entry_advances hformat h.canPush hq)
    refine ⟨s.req, (run_succ hskip).trans ?_⟩
    simp [completedTrace, run_zero]
  | some p =>
    have hcap : s.hasCap p = true := by simpa [State.hasCaps, hq] using hcaps
    have hissue := hstep.trans (exec_entry_issues hformat h.canPush hq hcap)
    have hdone := step_done
      (s := { s with req := p, pend := true, idx := s.idx + 1, trace := s.trace ++ [.req p] })
      hcfg rfl hbusy h.host
    refine ⟨p, (run_succ hissue).trans ((run_succ hdone).trans ?_)⟩
    simp [completedTrace, run_zero, envDone, logEvent, hpend]

end

/-- The entries left run in index order, each request completed before the next; only `REQ`, `IDX` and the trace are
written (R110). -/
theorem State.PushLeft.run {es : List Entry} (h : s.PushLeft es)
    (hcaps : s.hasCaps (tableRequests s.cfg.ops s.force es) = true) :
    ∃ r, core.run (es.length + (tableRequests s.cfg.ops s.force es).length) s = .next { s with
      req := r, idx := s.count
      trace := s.trace ++ completedTrace (tableRequests s.cfg.ops s.force es) } := by
  induction es generalizing s with
  | nil =>
    have hend : s = { s with idx := s.count } := congrArg (fun i => ({ s with idx := i } : State)) h.idx_eq_count
    refine ⟨s.req, ?_⟩
    simp only [tableRequests, completedTrace, List.filterMap_nil, List.flatMap_nil, List.append_nil]
    exact congrArg Host.Outcome.next hend
  | cons e es ih =>
    rw [tableRequests_cons, hasCaps_append] at hcaps
    obtain ⟨hfirst, hlater⟩ := hcaps
    obtain ⟨r, hr⟩ := h.run_entry hfirst
    obtain ⟨r', hr'⟩ := ih (h.advance r _) hlater
    refine ⟨r', ?_⟩
    rw [tableRequests_cons, List.length_append, List.length_cons, completedTrace_append, ← List.append_assoc,
      show ∀ a b c : Nat, a + 1 + (b + c) = b + 1 + (a + c) by omega, run_add hr]
    exact hr'

end

/-! ## The run of a whole push -/

/-- The count of a running push is within its table: it is the configuration's, which passes WF3. -/
theorem State.Inv.count_le {s : State} (h : s.Inv) (hp : s.phase.isPush = true) :
    s.count.toNat ≤ (s.tsel.entries s.cfg).length := by
  obtain ⟨-, -, hwf3, -⟩ := cfgCheck_none_iff.1 h.cfgOk
  obtain ⟨hinit, hsusp, -⟩ := wf3_iff.1 hwf3
  have hfits := h.pushOk
  obtain hq | hq := isPush_iff.1 hp <;> rw [pushFits, hq] at hfits <;> obtain ⟨htsel, hcount, -⟩ := hfits <;>
    rw [htsel, hcount]
  · exact hinit
  · exact hsusp

/-- At the start of a push the first `COUNT` entries of its table are left. -/
theorem State.Inv.pushLeft {s : State} (h : s.Inv) (hp : s.phase.isPush = true) (hpend : s.pend = false)
    (hidx : s.idx = 0) (hi : onlyHost s.inputs) :
    s.PushLeft ((s.tsel.entries s.cfg).take s.count.toNat) where
  live := ⟨h.cfgOk, h.legalRegisters⟩
  canPush := canPush_iff.2 ⟨isPush_iff.1 hp, hpend⟩
  host := hi
  countLe := h.count_le hp
  idxLe := by simp [hidx]
  left := by simp [hidx]

/-- No fault is recorded while the block is busy. -/
theorem State.Inv.fault_of_busy {s : State} (h : s.Inv) (hb : s.phase.isBusy = true) : s.fault = false := by
  rw [Bool.eq_false_iff, ne_eq, h.faultPhase]
  intro hq
  rw [hq] at hb
  exact absurd hb (by decide)

/-- Settles O52: the run of the entries left, from the start of the push. -/
theorem pushIssuesItsTableInOrder : Obligations.PushIssuesItsTableInOrder := by
  intro s hinv hp hpend hidx hi hcaps
  have hleft := hinv.pushLeft hp hpend hidx hi
  obtain ⟨r, hr⟩ := hleft.run hcaps
  rw [List.length_take_of_le hleft.countLe] at hr
  exact ⟨_, hr, rfl, rfl, hpend, rfl, rfl, hinv.fault_of_busy (busy_of_canPush hleft.canPush).1, rfl⟩

end Sys2Proof.Machine
end

section
/-! The four kinds of power-script step as whole next states (41_power_script.md R131 to R134), what they leave
unchanged (60_exceptions.md R196), and the script step that runs them or ends the script (R130, R137). -/

namespace Sys2Proof.Machine

/-! ## What a script step does -/

/-- The record of a fault that a script step raises names the step's index (60_exceptions.md R195). -/
theorem faultRecord_of_canScript {s : State} (h : s.canScript = true) (p : Request) :
    faultRecord p s = ⟨s.curOp, s.phase.code, s.sidx, BitVec.ofNat 3 p.kind⟩ := by
  have hpush : ¬ s.phase.isPush = true := by
    obtain ⟨hp | hp, -⟩ := canScript_iff.1 h <;> simp [hp, Phase.isPush]
  rw [faultRecord, State.liveIndex, if_neg hpush]

section
variable {i : Instr} {s : State} {p : Request} (hi : i.format = .s) (hs : s.canScript = true)
  (hq : requestOf false i = some p)
include hi hs hq

/-- Where SEQ has a script step, the meaning of one is its request issued, then the advance of `SIDX` (R130). -/
theorem exec_script_of_canScript : exec i s = .next (issue p advanceSidx s) := by
  obtain ⟨p', hq', he⟩ := exec_script hi s
  obtain rfl : p' = p := Option.some.inj (hq'.symm.trans hq)
  rw [he, inScript_of_canScript hs]

/-- A script step whose capability is present issues its request and advances; nothing else is written (R130). -/
theorem exec_script_issues (hc : s.hasCap p = true) :
    exec i s = .next { s with req := p, pend := true, sidx := s.sidx + 1, trace := s.trace ++ [.req p] } := by
  rw [exec_script_of_canScript hi hs hq, issue_present hc]
  rfl

/-- A script step whose capability is missing takes the fault, with `SIDX` unchanged (60_exceptions.md R195, R196). -/
theorem exec_script_faults (hc : s.hasCap p = false) :
    exec i s = .next { s with
      fault := true, faultCode := 0x01, faultInfo := ⟨s.curOp, s.phase.code, s.sidx, BitVec.ofNat 3 p.kind⟩
      status := 0x10, curOp := 0, phase := .faulted, trace := s.trace ++ [.rsp 0x10 none] } := by
  rw [exec_script_of_canScript hi hs hq, issue_missing hc, faultRecord_of_canScript hs]
  rfl

end

/-- THE INVERSION OF A SCRIPT STEP: if it answers a next state, it issued its request, or took the fault. -/
theorem exec_script_cases {i : Instr} {s t : State} (hi : i.format = .s) (h : exec i s = .next t) :
    ∃ p, requestOf false i = some p ∧
      ((s.hasCap p = true ∧ t = advanceSidx (putRequest p s)) ∨
        (s.hasCap p = false ∧ t = takeFault (faultRecord p s) s)) := by
  obtain ⟨p, hq, he⟩ := exec_script hi s
  obtain ⟨-, rfl⟩ := inScript_next (he ▸ h)
  exact ⟨p, hq, issue_cases p advanceSidx s⟩

/-! ## Which step a script takes -/

section
variable {s : State}

theorem scriptStep_of_decoded {st : ScriptStep} {i : Instr} (hst : scriptRead s s.sidx.toNat = some st)
    (hi : decodeStep st = .ok i) : scriptStep s = exec i s := by
  simp only [scriptStep, hst, hi]

theorem scriptStep_of_end (h : s.script.length ≤ s.sidx.toNat) : scriptStep s = .next (scriptDone s) := by
  have hread : scriptRead s s.sidx.toNat = none := List.getElem?_eq_none h
  simp only [scriptStep, hread]

theorem scriptDone_of_pwrUp (h : s.phase = .pwrUp) : scriptDone s = startPush .init s.cfg.initCount true s := if_pos h

theorem scriptDone_of_pwrDown (h : s.phase = .pwrDown) : scriptDone s = complete .suspended s :=
  if_neg (by simp [h])

theorem script_of_pwrUp (h : s.phase = .pwrUp) : s.script = s.cfg.upScript := if_pos h

theorem script_of_pwrDown (h : s.phase = .pwrDown) : s.script = s.cfg.downScript := if_neg (by simp [h])

/-- In a script phase with no request outstanding, and no move but HOST's, the step is the script step. -/
theorem step_eq_scriptStep (hlive : s.live) (hs : s.canScript = true) (hi : onlyHost s.inputs) :
    step s = scriptStep s := by
  obtain ⟨hcfg, hregs⟩ := hlive
  rw [step_eq_ownStep hcfg hi (.inl (canAccept_of_busy (busy_of_canScript hs).1)), ownStep_script hs hregs]

/-- In a script phase with no request outstanding, and no move but HOST's, the step at the end of the script is
ScriptDone (R137). -/
theorem step_of_script_end (hlive : s.live) (hs : s.canScript = true) (hi : onlyHost s.inputs)
    (hend : s.script.length ≤ s.sidx.toNat) : step s = .next (scriptDone s) := by
  rw [step_eq_scriptStep hlive hs hi, scriptStep_of_end hend]

end

/-! ## The statements -/

/-- Settles O40, by the two things a script step can do: it issued its request and advanced, or it took the fault. -/
theorem scriptFrame : Obligations.ScriptFrame := by
  intro i s t hi h
  obtain ⟨p, -, ⟨-, rfl⟩ | ⟨-, rfl⟩⟩ := exec_script_cases hi h
  · exact ⟨⟨rfl, rfl, rfl, rfl, rfl, rfl, rfl, rfl, rfl⟩, .inl ⟨rfl, rfl, rfl, rfl, rfl, rfl, rfl⟩,
      [.req p], rfl, rfl⟩
  · exact ⟨⟨rfl, rfl, rfl, rfl, rfl, rfl, rfl, rfl, rfl⟩, .inr ⟨rfl, rfl, rfl, rfl⟩,
      [.rsp stFaultMissingCap none], rfl, rfl⟩

/-- Settles O18: an S_RESET requests its level on the reset line when CAPS[0] is 1, and takes the fault otherwise. -/
theorem scriptResetDrivesTheLineOrFaults : Obligations.ScriptResetDrivesTheLineOrFaults := by
  refine ⟨fun a b c ha => (decodeStep_sReset a b c).trans (if_pos ha), fun level s hphase hpend => ?_⟩
  have hs : s.canScript = true := canScript_iff.2 ⟨hphase, hpend⟩
  have hq : requestOf false (.sReset level) = some (.setResetPin level) := rfl
  exact ⟨exec_script_issues rfl hs hq, exec_script_faults rfl hs hq⟩

/-- Settles O19: an S_BIAS requests its own arguments when CAPS[1] is 1, and takes the fault otherwise. -/
theorem scriptBiasPassesItsArgumentsOrFaults : Obligations.ScriptBiasPassesItsArgumentsOrFaults := by
  refine ⟨fun a b c ha => (decodeStep_sBias a b c).trans (if_pos ha), fun enable order voltage s hphase hpend => ?_⟩
  have hs : s.canScript = true := canScript_iff.2 ⟨hphase, hpend⟩
  have hq : requestOf false (.sBias enable order voltage) = some (.setBias enable order voltage) := rfl
  exact ⟨exec_script_issues rfl hs hq, exec_script_faults rfl hs hq⟩

/-- Settles O20: an S_MDELAY requests milliseconds for every count when CAPS[2] is 1, and takes the fault otherwise. -/
theorem scriptMillisecondWaitOrFaults : Obligations.ScriptMillisecondWaitOrFaults := by
  refine ⟨decodeStep_sMdelay, fun n s hphase hpend => ?_⟩
  have hs : s.canScript = true := canScript_iff.2 ⟨hphase, hpend⟩
  have hq : requestOf false (.sMdelay n) = some (.delayMs n) := rfl
  exact ⟨exec_script_issues rfl hs hq, exec_script_faults rfl hs hq⟩

/-- Settles O21: an S_UDELAY requests its count in microseconds when CAPS[3] is 1, and takes the fault otherwise. -/
theorem scriptMicrosecondWaitOrFaults : Obligations.ScriptMicrosecondWaitOrFaults := by
  refine ⟨decodeStep_sUdelay, fun n s hphase hpend => ?_⟩
  have hs : s.canScript = true := canScript_iff.2 ⟨hphase, hpend⟩
  have hq : requestOf false (.sUdelay n) = some (.delayUs n) := rfl
  exact ⟨exec_script_issues rfl hs hq, exec_script_faults rfl hs hq⟩

/-- Settles O29: each of the three moves lets the script step happen, which reads step SIDX. -/
theorem scriptStepRunsTheDecodedStep : Obligations.ScriptStepRunsTheDecodedStep := by
  intro s st i hlive hphase hpend hst hdecode
  have hs : s.canScript = true := canScript_iff.2 ⟨hphase, hpend⟩
  have hheld (hi : onlyHost s.inputs) : step s = exec i s := by
    rw [step_eq_scriptStep hlive hs hi, scriptStep_of_decoded hst hdecode]
  refine ⟨fun hi => hheld (by rw [hi]; trivial), fun rest hi => ?_, fun _ _ hi => hheld (by rw [hi]; trivial)⟩
  obtain ⟨hcfg, hregs⟩ := hlive
  rw [step_of_run hcfg hi, ownStep_script (s := { s with inputs := rest }) hs hregs,
    scriptStep_of_decoded (s := { s with inputs := rest }) hst hdecode]

/-- Settles O33: the script step at the end of the script is ScriptDone, which asks for the phase alone. -/
theorem scriptDoneEndsTheScript : Obligations.ScriptDoneEndsTheScript := by
  intro s hlive hpend hi
  refine ⟨fun hup hend => ?_, fun hdown hend => ?_⟩
  · rw [← script_of_pwrUp hup] at hend
    rw [step_of_script_end hlive (canScript_iff.2 ⟨.inl hup, hpend⟩) hi hend, scriptDone_of_pwrUp hup]
    rfl
  · rw [← script_of_pwrDown hdown] at hend
    rw [step_of_script_end hlive (canScript_iff.2 ⟨.inr hdown, hpend⟩) hi hend, scriptDone_of_pwrDown hdown]
    rfl

end Sys2Proof.Machine
end

section
/-! The host commands as whole next states (42_lifecycle.md R152 to R157), the accept step that runs them (R150), and
where the meanings stop (R165). -/

namespace Sys2Proof.Machine

/-! ## What the guards let run and where they stop -/

section
variable {s : State} (f : State → State)

/-- In `IDLE` with no request outstanding a command's body runs. -/
theorem inAccept_of_idle (hq : s.phase = .idle) (hp : s.pend = false) : inAccept s f = .next (f s) := by
  rw [inAccept, if_pos (canAccept_iff.2 ⟨.inl hq, hp⟩), if_neg (by simp [hq])]

/-- In `FAULTED` with no request outstanding a command is answered `ST_FAULTED`, whatever its body (R152). -/
theorem inAccept_of_faulted (hq : s.phase = .faulted) (hp : s.pend = false) :
    inAccept s f = .next (reject stFaulted .faulted s) := by
  rw [inAccept, if_pos (canAccept_iff.2 ⟨.inr hq, hp⟩), if_pos hq]

theorem inAccept_stops (h : s.canAccept = false) : inAccept s f = .fault .notEnabled := if_neg (by simp [h])

theorem inPush_stops (h : s.canPush = false) : inPush s f = .fault .notEnabled := if_neg (by simp [h])

theorem inScript_stops (h : s.canScript = false) : inScript s f = .fault .notEnabled := if_neg (by simp [h])

end

/-- A rejection that keeps the phase writes only `STATUS`, `CUR_OP` and the trace (R152). -/
theorem reject_of_phase {s : State} {ph : Phase} (h : s.phase = ph) (st : Byte) :
    reject st ph s = { s with status := st, curOp := 0, trace := s.trace ++ [.rsp st none] } := by
  subst h
  rfl

/-! ## The bodies of the five commands -/

section
variable (s : State)

theorem exec_hConfigure (caps : CapBits) : exec (.hConfigure caps) s =
    inAccept s fun s => { respond stOk none { s with caps := caps, capValid := true } with phase := .idle } := rfl

theorem exec_hDescribe : exec .hDescribe s =
    inAccept s fun s => { respond stOk (some (zeroFill s.cfg)) s with phase := .idle } := rfl

theorem exec_hInitialize : exec .hInitialize s = inAccept s (startBusy .initPanel (startScript .pwrUp)) := rfl

theorem exec_hSuspend : exec .hSuspend s =
    inAccept s (startBusy .suspendPanel fun s => startPush .susp s.cfg.suspCount s.cfg.suspForce s) := rfl

theorem exec_hResume : exec .hResume s = inAccept s (startBusy .resumePanel (startScript .pwrUp)) := rfl

end

/-- Every host command is a body behind the guard of the accept step (R150). -/
theorem exec_host {i : Instr} (h : i.format = .h) (s : State) : ∃ f, exec i s = inAccept s f := by
  cases i with
  | hConfigure caps => exact ⟨_, exec_hConfigure s caps⟩
  | hDescribe => exact ⟨_, exec_hDescribe s⟩
  | hInitialize => exact ⟨_, exec_hInitialize s⟩
  | hSuspend => exact ⟨_, exec_hSuspend s⟩
  | hResume => exact ⟨_, exec_hResume s⟩
  | write | delay | udelay | endMark | sReset | sBias | sMdelay | sUdelay => simp [Instr.format] at h

/-- Settles O36: each meaning is a body behind the guard of its kind of step, and the guards stop by name. -/
theorem meaningsStopWhereSeqHasNoStep : Obligations.MeaningsStopWhereSeqHasNoStep := by
  refine fun i s => ⟨fun hi hs => ?_, fun hi hs => ?_, fun hi hs => ?_⟩
  · rw [exec_entry hi, inPush_stops _ hs]
  · obtain ⟨p, -, he⟩ := exec_script hi s
    rw [he, inScript_stops _ hs]
  · obtain ⟨f, he⟩ := exec_host hi s
    rw [he, inAccept_stops _ hs]

/-! ## What a host command answers -/

/-- In `FAULTED` every host command is answered `ST_FAULTED`, and nothing else is written (R152). -/
theorem exec_host_of_faulted {i : Instr} {s : State} (hi : i.format = .h) (hp : s.pend = false)
    (hq : s.phase = .faulted) :
    exec i s = .next { s with status := 0x04, curOp := 0, trace := s.trace ++ [.rsp 0x04 none] } := by
  obtain ⟨f, he⟩ := exec_host hi s
  rw [he, inAccept_of_faulted f hq hp, reject_of_phase hq]
  rfl

section
variable {i : Instr} {c : BusyCmd} {f : State → State} {s : State} (he : exec i s = inAccept s (startBusy c f))
  (hp : s.pend = false) (hq : s.phase = .idle)
include he hp hq

/-- The checks of a busy command in order: configured, then legal where transitions are checked; then it starts, with
its code in `CUR_OP` (R152, R160). -/
theorem exec_busy : exec i s = .next (
    if s.capValid = false then { s with status := 0x02, curOp := 0, trace := s.trace ++ [.rsp 0x02 none] }
    else if s.cfg.checkTransitions = true ∧ legal c s.lstate = false then
      { s with status := 0x01, curOp := 0, trace := s.trace ++ [.rsp 0x01 none] }
    else f { s with curOp := c.code }) := by
  rw [he, inAccept_of_idle _ hq hp]
  obtain ⟨hv, hstart⟩ | ⟨hv, hc, hl, hstart⟩ | ⟨hv, hl, hstart⟩ := startBusy_cases c f s <;> rw [hstart]
  · rw [if_pos hv, reject_of_phase hq]
    rfl
  · rw [if_neg (by simp [hv]), if_pos ⟨hc, hl⟩, reject_of_phase hq]
    rfl
  · rw [if_neg (by simp [hv]), if_neg]
    rintro ⟨hc, hill⟩
    simp [hc, hill] at hl

theorem exec_busy_unconfigured (hv : s.capValid = false) :
    exec i s = .next { s with status := 0x02, curOp := 0, trace := s.trace ++ [.rsp 0x02 none] } := by
  rw [exec_busy he hp hq, if_pos hv]

theorem exec_busy_illegal (hv : s.capValid = true) (hc : s.cfg.checkTransitions = true)
    (hl : legal c s.lstate = false) :
    exec i s = .next { s with status := 0x01, curOp := 0, trace := s.trace ++ [.rsp 0x01 none] } := by
  rw [exec_busy he hp hq, if_neg (by simp [hv]), if_pos ⟨hc, hl⟩]

theorem exec_busy_starts (hv : s.capValid = true) (hl : s.cfg.checkTransitions = false ∨ legal c s.lstate = true) :
    exec i s = .next (f { s with curOp := c.code }) := by
  rw [exec_busy he hp hq, if_neg (by simp [hv]), if_neg]
  rintro ⟨hc, hill⟩
  simp [hc, hill] at hl

end

/-- The decoder compares the low byte of the word, as a number, with the five codes (30_encoding.md R77). -/
theorem decodeCommand_eq (h : CmdWord) : decodeCommand h =
    if h.toNat % 256 = 1 then .ok (.hConfigure (BitVec.ofNat 7 (h.toNat / 256)))
    else if h.toNat % 256 = 2 then .ok .hDescribe
    else if h.toNat % 256 = 3 then .ok .hInitialize
    else if h.toNat % 256 = 4 then .ok .hSuspend
    else if h.toNat % 256 = 5 then .ok .hResume
    else .error .badCommandCode := by
  have hcode (n : Byte) : cmdCode h = n ↔ h.toNat % 256 = n.toNat := by rw [← BitVec.toNat_inj, cmdCode_toNat]
  simp only [decodeCommand, hcode, cmdCaps_eq]
  rfl

/-- Settles O22: CONFIGURE's body stores its payload in `IDLE`, and does not run in `FAULTED`. -/
theorem configureStoresTheCapabilities : Obligations.ConfigureStoresTheCapabilities := by
  refine ⟨fun h hcode => by simp [decodeCommand_eq, hcode],
    fun caps s hp => ⟨fun hq => ?_, exec_host_of_faulted rfl hp⟩⟩
  rw [exec_hConfigure, inAccept_of_idle _ hq hp, ← hq]
  rfl

/-- Settles O23: DESCRIBE's body answers the completed descriptor in `IDLE`, and does not run in `FAULTED`. -/
theorem describeAnswersTheDescriptor : Obligations.DescribeAnswersTheDescriptor := by
  refine ⟨fun h hcode => by simp [decodeCommand_eq, hcode], fun s hp => ⟨fun hq => ?_, exec_host_of_faulted rfl hp⟩⟩
  rw [exec_hDescribe, inAccept_of_idle _ hq hp, ← hq]
  rfl

/-- Settles O24: INITIALIZE is legal in every lifecycle state. -/
theorem initializeStartsThePowerUpScript : Obligations.InitializeStartsThePowerUpScript := fun _ hp =>
  ⟨fun hq hv => exec_busy_starts (exec_hInitialize _) hp hq hv (.inr rfl),
    fun hq => exec_busy_unconfigured (exec_hInitialize _) hp hq, exec_host_of_faulted rfl hp⟩

/-- Settles O25: SUSPEND is legal in `ACTIVE` alone. -/
theorem suspendStartsTheSuspendPush : Obligations.SuspendStartsTheSuspendPush := fun _ hp =>
  ⟨fun hq hv hl => exec_busy_starts (exec_hSuspend _) hp hq hv (by simpa [legal] using hl),
    fun hq hv hc hl => exec_busy_illegal (exec_hSuspend _) hp hq hv hc (by simpa [legal] using hl),
    fun hq => exec_busy_unconfigured (exec_hSuspend _) hp hq, exec_host_of_faulted rfl hp⟩

/-- Settles O26: RESUME is legal in `SUSPENDED` alone. -/
theorem resumeStartsThePowerUpScript : Obligations.ResumeStartsThePowerUpScript := fun _ hp =>
  ⟨fun hq hv hl => exec_busy_starts (exec_hResume _) hp hq hv (by simpa [legal] using hl),
    fun hq hv hc hl => exec_busy_illegal (exec_hResume _) hp hq hv hc (by simpa [legal] using hl),
    fun hq => exec_busy_unconfigured (exec_hResume _) hp hq, exec_host_of_faulted rfl hp⟩

/-- Settles O41, by what an accepted command can do: rejected in `FAULTED`, or one of the cases of `Command`. -/
theorem commandFrame : Obligations.CommandFrame := by
  intro i s t hi h
  obtain ⟨-, ⟨hq, rfl⟩ | ⟨hq, hc⟩⟩ := exec_command hi h
  · exact ⟨⟨rfl, rfl, rfl, rfl, rfl, rfl, rfl, rfl⟩, .inr ⟨rfl, rfl⟩, .inr ⟨rfl, rfl, rfl, rfl⟩, .inr (.inr rfl),
      .inr (.inr (.inr hq.symm)), [.rsp stFaulted none], le_rfl, rfl⟩
  · cases hc with
    | configure c =>
      exact ⟨⟨rfl, rfl, rfl, rfl, rfl, rfl, rfl, rfl⟩, .inl ⟨c, rfl⟩, .inr ⟨rfl, rfl, rfl, rfl⟩, .inr (.inr rfl),
        .inr (.inr (.inr hq.symm)), [_], le_rfl, rfl⟩
    | describe | notConfigured | invalidTransition =>
      exact ⟨⟨rfl, rfl, rfl, rfl, rfl, rfl, rfl, rfl⟩, .inr ⟨rfl, rfl⟩, .inr ⟨rfl, rfl, rfl, rfl⟩, .inr (.inr rfl),
        .inr (.inr (.inr hq.symm)), [_], le_rfl, rfl⟩
    | powerUp i o _ hstarts =>
      have hi : i = .hInitialize ∨ i = .hResume := hstarts.imp And.left And.left
      exact ⟨⟨rfl, rfl, rfl, rfl, rfl, rfl, rfl, rfl⟩, .inr ⟨rfl, rfl⟩, .inr ⟨rfl, rfl, rfl, rfl⟩,
        by tauto, by tauto, [], by simp, by simp⟩
    | suspend =>
      exact ⟨⟨rfl, rfl, rfl, rfl, rfl, rfl, rfl, rfl⟩, .inr ⟨rfl, rfl⟩, .inl rfl, .inr (.inr rfl),
        .inr (.inl rfl), [], by simp, by simp⟩

/-! ## The accept step -/

section
variable {s : State} {h : CmdWord}

theorem acceptStep_of_decoded {i : Instr} (hd : decodeCommand h = .ok i) :
    acceptStep h s = exec i (logEvent (.cmd h) s) := by
  simp only [acceptStep, hd]

/-- In `FAULTED` every word is answered `ST_FAULTED`, also one that does not decode (R152, 60_exceptions.md R198). -/
theorem acceptStep_of_faulted (hp : s.pend = false) (hq : s.phase = .faulted) :
    acceptStep h s = .next { s with status := 0x04, curOp := 0, trace := s.trace ++ [.cmd h, .rsp 0x04 none] } := by
  cases hd : decodeCommand h with
  | ok i =>
    rw [acceptStep_of_decoded hd, exec_host_of_faulted (s := logEvent (.cmd h) s) (decodeCommand_format hd) hp hq]
    simp [logEvent]
  | error =>
    simp only [acceptStep, hd]
    rw [badCommand, inAccept_of_faulted (s := logEvent (.cmd h) s) _ hq hp,
      reject_of_phase (s := logEvent (.cmd h) s) hq]
    simp [logEvent, stFaulted]

/-- In `IDLE` a word with no command's code is answered `ST_BAD_COMMAND` (60_exceptions.md R193). -/
theorem acceptStep_of_bad {e : DecodeError} (hp : s.pend = false) (hq : s.phase = .idle)
    (hd : decodeCommand h = .error e) :
    acceptStep h s = .next { s with status := 0x03, curOp := 0, trace := s.trace ++ [.cmd h, .rsp 0x03 none] } := by
  simp only [acceptStep, hd]
  rw [badCommand, inAccept_of_idle (s := logEvent (.cmd h) s) _ hq hp, reject_of_phase (s := logEvent (.cmd h) s) hq]
  simp [logEvent, stBadCommand]

end

/-- Settles O30: the accept step logs `cmd(h)` and runs the decoded command. -/
theorem acceptStepRunsTheDecodedCommand : Obligations.AcceptStepRunsTheDecodedCommand := by
  intro s h rest i ⟨hcfg, hregs⟩ hphase hp hi hd
  rw [step_eq_acceptStep hcfg hregs hi (canAccept_iff.2 ⟨hphase, hp⟩), acceptStep_of_decoded hd]
  rfl

/-- In `IDLE` the code decides the command, and the command's own checks follow in order (R152). -/
theorem exec_decoded_of_idle {s : State} {h : CmdWord} {i : Instr} (hp : s.pend = false) (hq : s.phase = .idle)
    (hd : decodeCommand h = .ok i) : exec i s = .next (
      if h.toNat % 256 = 1 then
        { s with caps := BitVec.ofNat 7 (h.toNat / 256), capValid := true, status := 0x00, curOp := 0
                 trace := s.trace ++ [.rsp 0x00 none] }
      else if h.toNat % 256 = 2 then
        { s with status := 0x00, curOp := 0, trace := s.trace ++ [.rsp 0x00 (some (zeroFill s.cfg))] }
      else if s.capValid = false then
        { s with status := 0x02, curOp := 0, trace := s.trace ++ [.rsp 0x02 none] }
      else if s.cfg.checkTransitions = true ∧
          ((h.toNat % 256 = 4 ∧ s.lstate ≠ .active) ∨ (h.toNat % 256 = 5 ∧ s.lstate ≠ .suspended)) then
        { s with status := 0x01, curOp := 0, trace := s.trace ++ [.rsp 0x01 none] }
      else if h.toNat % 256 = 4 then
        { s with curOp := 4, tsel := .susp, count := s.cfg.suspCount, force := s.cfg.suspForce, idx := 0
                 phase := .pushSusp }
      else { s with curOp := BitVec.ofNat 3 (h.toNat % 256), sidx := 0, phase := .pwrUp }) := by
  rw [decodeCommand_eq] at hd
  split_ifs at hd with h1 h2 h3 h4 h5 <;> cases hd
  · rw [(configureStoresTheCapabilities.2 _ s hp).1 hq, if_pos h1]
  · rw [(describeAnswersTheDescriptor.2 s hp).1 hq, if_neg h1, if_pos h2]
  · simp [exec_busy (exec_hInitialize s) hp hq, h3, legal, startScript, BusyCmd.code]
  · simp [exec_busy (exec_hSuspend s) hp hq, h4, legal, startPush, Table.pushPhase, BusyCmd.code]
  · simp [exec_busy (exec_hResume s) hp hq, h5, legal, startScript, BusyCmd.code]

/-- A word decodes exactly when its code is one of the five (30_encoding.md R77). -/
theorem decodeCommand_cases (h : CmdWord) :
    (¬ (1 ≤ h.toNat % 256 ∧ h.toNat % 256 ≤ 5) ∧ decodeCommand h = .error .badCommandCode) ∨
      ((1 ≤ h.toNat % 256 ∧ h.toNat % 256 ≤ 5) ∧ ∃ i, decodeCommand h = .ok i) := by
  rw [decodeCommand_eq]
  split_ifs with h1 h2 h3 h4 h5
  · exact .inr ⟨by omega, _, rfl⟩
  · exact .inr ⟨by omega, _, rfl⟩
  · exact .inr ⟨by omega, _, rfl⟩
  · exact .inr ⟨by omega, _, rfl⟩
  · exact .inr ⟨by omega, _, rfl⟩
  · exact .inl ⟨by omega, rfl⟩

/-- Settles O31: `FAULTED` answers every word; in `IDLE` a word that decodes runs its command's checks. -/
theorem acceptStepChecksInOrder : Obligations.AcceptStepChecksInOrder := by
  intro s h rest hlive hphase hp hi
  obtain ⟨hcfg, hregs⟩ := hlive
  rw [step_eq_acceptStep hcfg hregs hi (canAccept_iff.2 ⟨hphase, hp⟩)]
  obtain hq | hq := hphase.symm
  · rw [if_pos hq, acceptStep_of_faulted (s := { s with inputs := rest }) hp hq]
  rw [if_neg (by simp [hq])]
  obtain ⟨hcode, hd⟩ | ⟨hcode, i, hd⟩ := decodeCommand_cases h
  · rw [if_pos hcode, acceptStep_of_bad (s := { s with inputs := rest }) hp hq hd]
  · rw [if_neg (not_not.2 hcode), acceptStep_of_decoded hd,
      exec_decoded_of_idle (s := logEvent (.cmd h) { s with inputs := rest }) hp hq hd]
    simp [logEvent]

end Sys2Proof.Machine
end

section
/-! Which step is taken, and that one is always taken from a state of the invariant; what writes `LSTATE`, and what ends
a busy phase (42_lifecycle.md R151, R159, R163, R165). -/

namespace Sys2Proof.Machine

/-! ## The move decides the step -/

section
variable {s : State} {rest : List Input} (hc : cfgCheck s.cfg = none)
include hc

/-- A stall is taken from the schedule and nothing else changes (log entry 5). -/
theorem step_of_stall (hi : s.inputs = .stall :: rest) : step s = .next { s with inputs := rest } := by
  simp only [step, checkedStep, hc, takeMove, hi]

/-- A reset is taken from the schedule and resets the block (70_reset_and_hazards.md R220). -/
theorem step_of_reset (hi : s.inputs = .reset :: rest) : step s = .next (resetState { s with inputs := rest }) := by
  simp only [step, checkedStep, hc, takeMove, hi]

end

theorem stepRequest_eq_some {st : ScriptStep} {p : Request} :
    stepRequest st = some p ↔ ∃ i, decodeStep st = .ok i ∧ requestOf false i = some p := by
  unfold stepRequest
  split <;> simp_all

/-- The cases of `Own` are not only all that an own step can do: under its guards each one is the own step. -/
theorem ownStep_of_own {s t : State} (h : Own s t) : ownStep s = .next t := by
  cases h with
  | done hp => exact ownStep_done hp
  | wait hp hr hq => obtain hq | hq := hq <;> simp [ownStep, seqDoes, hp, hr, hq]
  | pushCompleted hs hr hend ht => rw [ownStep_push hs hr, pushStep_of_end hend, pushDone_of_init ht]
  | pushToScript hs hr hend ht => rw [ownStep_push hs hr, pushStep_of_end hend, pushDone_of_susp ht]
  | entryIssued e p hs hr hlt he hq hc =>
    rw [ownStep_push hs hr, pushStep_of_entry hlt he, exec_entry_issues (decodeEntry_format _ e) hs hq hc]
    rfl
  | entryFaulted e p hs hr hlt he hq hc =>
    rw [ownStep_push hs hr, pushStep_of_entry hlt he, exec_entry_faults (decodeEntry_format _ e) hs hq hc,
      ← faultRecord_of_canPush hs]
    rfl
  | entrySkipped e hs hr hlt he hq =>
    rw [ownStep_push hs hr, pushStep_of_entry hlt he, exec_entry_advances (decodeEntry_format _ e) hs hq]
    rfl
  | scriptToPush hup hp hr hend =>
    rw [ownStep_script (canScript_iff.2 ⟨.inl hup, hp⟩) hr, scriptStep_of_end (by rwa [script_of_pwrUp hup]),
      scriptDone_of_pwrUp hup]
  | scriptCompleted hdown hp hr hend =>
    rw [ownStep_script (canScript_iff.2 ⟨.inr hdown, hp⟩) hr, scriptStep_of_end (by rwa [script_of_pwrDown hdown]),
      scriptDone_of_pwrDown hdown]
  | stepIssued st p hs hr hst hq hc =>
    obtain ⟨i, hd, hi⟩ := stepRequest_eq_some.1 hq
    rw [ownStep_script hs hr, scriptStep_of_decoded hst hd, exec_script_issues (decodeStep_format hd) hs hi hc]
    rfl
  | stepFaulted st p hs hr hst hq hc =>
    obtain ⟨i, hd, hi⟩ := stepRequest_eq_some.1 hq
    rw [ownStep_script hs hr, scriptStep_of_decoded hst hd, exec_script_faults (decodeStep_format hd) hs hi hc,
      ← faultRecord_of_canScript hs]
    rfl

/-- Settles O38: waiting is the own step of a block that is not busy. -/
theorem blockWaitsForACommand : Obligations.BlockWaitsForACommand := by
  refine ⟨fun s ⟨hcfg, hregs⟩ hphase hp hi => ?_, fun s rest => step_of_stall⟩
  rw [step_eq_ownStep hcfg (by rw [hi]; trivial) (.inr hi), ownStep_of_own (.wait hp hregs hphase)]

/-! ## From a state of the invariant a step is always taken -/

/-- The invariant says nothing of the moves to come. -/
theorem State.Inv.withInputs {s : State} (h : s.Inv) (x : List Input) : State.Inv { s with inputs := x } :=
  ⟨h.cfgOk, h.legalRegisters, h.pendBusy, h.busyConfigured, h.curOpOk, h.pushOk, h.reqAllowed, h.reqSized, h.faultPhase,
    h.faultCodeOk, h.faultInfoClear, h.faultCapMissing, h.traceOk⟩

section
variable {s : State} (h : s.Inv)
include h

/-- A push of the invariant reads within its table (30_encoding.md R80, WF3), so its step does not stop. -/
theorem State.Inv.pushStep_next (hs : s.canPush = true) : ∃ t, pushStep s = .next t := by
  obtain hend | hlt := le_or_gt s.count.toNat s.idx.toNat
  · exact ⟨_, pushStep_of_end hend⟩
  · have hlen := h.count_le (isPush_iff.2 (canPush_iff.1 hs).1)
    have hread : tableRead s.cfg s.tsel s.idx.toNat = some (s.tsel.entries s.cfg)[s.idx.toNat] :=
      List.getElem?_eq_getElem (hlt.trans_le hlen)
    exact ⟨_, by rw [pushStep_of_entry hlt hread, exec_entry (decodeEntry_format _ _), inPush_of_canPush hs]⟩

/-- Every step of a checked script decodes (30_encoding.md R80, WF4), so its step does not stop. -/
theorem State.Inv.scriptStep_next (hs : s.canScript = true) : ∃ t, scriptStep s = .next t := by
  cases hread : scriptRead s s.sidx.toNat with
  | none => exact ⟨_, scriptStep_of_end (List.getElem?_eq_none_iff.1 hread)⟩
  | some st =>
    obtain ⟨i, hd⟩ := stepFits_decodes st (stepFits_of_read h.cfgOk hread)
    obtain ⟨p, -, he⟩ := exec_script (decodeStep_format hd) s
    exact ⟨_, by rw [scriptStep_of_decoded hread hd, he, inScript_of_canScript hs]⟩

/-- With a legal phase one of the own steps is enabled (42_lifecycle.md R165). -/
theorem State.Inv.ownStep_next : ∃ t, ownStep s = .next t := by
  have hregs := h.legalRegisters
  obtain ⟨-, h6, h7, -⟩ := reservedHeld_iff.1 hregs
  cases hp : s.pend with
  | true => exact ⟨_, ownStep_done hp⟩
  | false =>
    cases hq : s.phase with
    | idle => exact ⟨s, ownStep_of_own (.wait hp hregs (.inl hq))⟩
    | faulted => exact ⟨s, ownStep_of_own (.wait hp hregs (.inr hq))⟩
    | pushInit | pushSusp =>
      have hs : s.canPush = true := canPush_iff.2 (by simp [hq, hp])
      rw [ownStep_push hs hregs]
      exact h.pushStep_next hs
    | pwrUp | pwrDown =>
      have hs : s.canScript = true := canScript_iff.2 (by simp [hq, hp])
      rw [ownStep_script hs hregs]
      exact h.scriptStep_next hs
    | reserved6 => exact absurd hq h6
    | reserved7 => exact absurd hq h7

end

/-- Settles O43: whatever the move, the configuration passes and the step it lets happen does not stop. -/
theorem invariantStatesNeverStop : Obligations.InvariantStatesNeverStop := by
  intro s h
  have hown (hi : onlyHost s.inputs) (ha : s.canAccept = false ∨ s.inputs = []) : ∃ t, step s = .next t := by
    rw [step_eq_ownStep h.cfgOk hi ha]
    exact h.ownStep_next
  cases hi : s.inputs with
  | nil => exact hown (by rw [hi]; trivial) (.inr hi)
  | cons x rest =>
    cases x with
    | run =>
      rw [step_of_run h.cfgOk hi]
      exact (h.withInputs rest).ownStep_next
    | stall => exact ⟨_, step_of_stall h.cfgOk hi⟩
    | reset => exact ⟨_, step_of_reset h.cfgOk hi⟩
    | command c =>
      cases ha : s.canAccept with
      | false => exact hown (by rw [hi]; trivial) (.inl ha)
      | true =>
        obtain ⟨hphase, hp⟩ := canAccept_iff.1 ha
        exact ⟨_, acceptStepChecksInOrder s c rest ⟨h.cfgOk, h.legalRegisters⟩ hphase hp hi⟩

/-! ## Completions and faults -/

/-- An own step keeps `LSTATE`, or is one of the two completions, under its guards (R159). -/
theorem own_lstate {s t : State} (h : Own s t) : t.lstate = s.lstate ∨
    s.pend = false ∧
      ((t = complete .active s ∧ (s.phase = .pushInit ∨ s.phase = .pushSusp) ∧ s.tsel = .init ∧
          s.count.toNat ≤ s.idx.toNat) ∨
        (t = complete .suspended s ∧ s.phase = .pwrDown ∧ s.cfg.downScript.length ≤ s.sidx.toNat)) := by
  cases h with
  | pushCompleted hs _ hend ht =>
    obtain ⟨hq, hp⟩ := canPush_iff.1 hs
    exact .inr ⟨hp, .inl ⟨rfl, hq, ht, hend⟩⟩
  | scriptCompleted hdown hp _ hend => exact .inr ⟨hp, .inr ⟨rfl, hdown, hend⟩⟩
  | done | wait | pushToScript | entryIssued | entryFaulted | entrySkipped | scriptToPush | stepIssued | stepFaulted =>
    exact .inl rfl

/-- No command writes `LSTATE` in its accept step. -/
theorem accept_lstate {s t : State} {c : CmdWord} (h : Accept s c t) : t.lstate = s.lstate := by
  cases h with
  | faulted | bad => rfl
  | command i t _ _ hc => cases hc <;> rfl

/-- Settles O45: of the four kinds of step, only reset and a completion write `LSTATE`. -/
theorem lifecycleStateIsWrittenOnlyByCompletion : Obligations.LifecycleStateIsWrittenOnlyByCompletion := by
  intro s t h hr hne
  obtain ⟨rest, ⟨hreset, -⟩ | rfl | ho | ⟨c, -, -, ha⟩⟩ := step_kinds h
  · exact absurd hreset hr
  · exact absurd rfl hne
  · obtain ⟨hp, ⟨rfl, hq, ht, hend⟩ | ⟨rfl, hdown, hend⟩⟩ := (own_lstate ho).resolve_left hne
    · exact ⟨hp, rfl, rfl, rfl, rfl, .inl ⟨rfl, hq, ht, hend⟩⟩
    · exact ⟨hp, rfl, rfl, rfl, rfl, .inr ⟨rfl, hdown, hend⟩⟩
  · exact absurd (accept_lstate ha) hne

/-- An own step of a busy block goes on, completes the command, or takes the fault (R151, R163). -/
theorem own_of_busy {s t : State} (h : Own s t) (hb : s.phase.isBusy = true) :
    t.phase.isBusy = true ∨ (∃ l, t = complete l s) ∨ ∃ info, t = takeFault info s := by
  cases h with
  | pushCompleted | scriptCompleted => exact .inr (.inl ⟨_, rfl⟩)
  | entryFaulted | stepFaulted => exact .inr (.inr ⟨_, rfl⟩)
  | pushToScript | scriptToPush => exact .inl rfl
  | done | wait | entryIssued | entrySkipped | stepIssued => exact .inl hb

/-- Settles O50: a busy block accepts nothing, so without reset its step is an own step or leaves it as it is. -/
theorem busyEndsOnlyWithAResponse : Obligations.BusyEndsOnlyWithAResponse := by
  intro s t h hb hr
  obtain ⟨rest, ⟨hreset, -⟩ | rfl | ho | ⟨c, -, hacc, -⟩⟩ := step_kinds h
  · exact absurd hreset hr
  · exact .inl hb
  · obtain hbusy | ⟨l, rfl⟩ | ⟨info, rfl⟩ := own_of_busy ho hb
    · exact .inl hbusy
    · exact .inr (.inl ⟨rfl, rfl⟩)
    · exact .inr (.inr ⟨rfl, rfl⟩)
  · exact absurd hacc (by simp [canAccept_of_busy hb])

end Sys2Proof.Machine
end

section
/-! RESUME and INITIALIZE differ in `CUR_OP`, in the record of a fault and in the `cmd` event, and no step reads any of
these to decide: a simulation between the two runs (42_lifecycle.md R161). -/

namespace Sys2Proof.Machine

/-! ## The accept step of a busy command that starts -/

section
variable {s : State} {h : CmdWord} {rest : List Input} (hlive : s.live) (hq : s.phase = .idle) (hp : s.pend = false)
  (hv : s.capValid = true) (hi : s.inputs = .command h :: rest)
include hlive hq hp hv hi

/-- The step of an accepted INITIALIZE (R150, R155). -/
theorem step_of_initialize (hc : h.toNat % 256 = 3) : step s = .next { s with
    inputs := rest, curOp := 3, sidx := 0, phase := .pwrUp, trace := s.trace ++ [.cmd h] } := by
  have hd : decodeCommand h = .ok .hInitialize := by simp [decodeCommand_eq, hc]
  rw [acceptStepRunsTheDecodedCommand s h rest _ hlive (.inl hq) hp hi hd]
  exact (initializeStartsThePowerUpScript { s with inputs := rest, trace := s.trace ++ [.cmd h] } hp).1 hq hv

/-- The step of an accepted RESUME (R150, R157). -/
theorem step_of_resume (hc : h.toNat % 256 = 5) (hl : s.cfg.checkTransitions = false ∨ s.lstate = .suspended) :
    step s = .next { s with
      inputs := rest, curOp := 5, sidx := 0, phase := .pwrUp, trace := s.trace ++ [.cmd h] } := by
  have hd : decodeCommand h = .ok .hResume := by simp [decodeCommand_eq, hc]
  rw [acceptStepRunsTheDecodedCommand s h rest _ hlive (.inl hq) hp hi hd]
  exact (resumeStartsThePowerUpScript { s with inputs := rest, trace := s.trace ++ [.cmd h] } hp).1 hq hv hl

/-- The step of an accepted SUSPEND (R150, R156). -/
theorem step_of_suspend (hc : h.toNat % 256 = 4) (hl : s.cfg.checkTransitions = false ∨ s.lstate = .active) :
    step s = .next { s with
      inputs := rest, curOp := 4, tsel := .susp, count := s.cfg.suspCount, force := s.cfg.suspForce, idx := 0
      phase := .pushSusp, trace := s.trace ++ [.cmd h] } := by
  have hd : decodeCommand h = .ok .hSuspend := by simp [decodeCommand_eq, hc]
  rw [acceptStepRunsTheDecodedCommand s h rest _ hlive (.inl hq) hp hi hd]
  exact (suspendStartsTheSuspendPush { s with inputs := rest, trace := s.trace ++ [.cmd h] } hp).1 hq hv hl

end

/-! ## Alike states -/

@[simp] theorem requestsOf_cmd (h : CmdWord) : requestsOf [.cmd h] = [] := rfl

@[simp] theorem statusesOf_cmd (h : CmdWord) : statusesOf [.cmd h] = [] := rfl

/-- `u` is `s` but for `CUR_OP`, `FAULT_INFO` and the trace, and the two traces have the same requests and the same
response statuses. -/
inductive State.Alike (s : State) : State → Prop where
  | mk (o : BitVec 3) (info : FaultInfo) (tr : List Event) : requestsOf tr = requestsOf s.trace →
      statusesOf tr = statusesOf s.trace → s.Alike { s with curOp := o, faultInfo := info, trace := tr }

section
variable {s u : State} (hu : s.Alike u)
include hu

theorem State.Alike.cfg : u.cfg = s.cfg := by cases hu; rfl

theorem State.Alike.inputs : u.inputs = s.inputs := by cases hu; rfl

theorem State.Alike.canAccept : u.canAccept = s.canAccept := by cases hu; rfl

theorem State.Alike.withInputs (x : List Input) : State.Alike { s with inputs := x } { u with inputs := x } := by
  obtain ⟨o, info, tr, hreq, hst⟩ := hu
  exact .mk o info tr hreq hst

end

theorem State.Alike.ite {c : Prop} [Decidable c] {a a' b b' : State} (ha : a.Alike a') (hb : b.Alike b') :
    (if c then a else b).Alike (if c then a' else b') := by
  split
  · exact ha
  · exact hb

/-- Alike states take the same own step, to alike states: its guards read none of the registers they differ in. -/
theorem State.Alike.own_step {s t u : State} (hu : s.Alike u) (h : Own s t) : ∃ v, Own u v ∧ t.Alike v := by
  obtain ⟨o, info, tr, hreq, hst⟩ := hu
  cases h with
  | done hp => exact ⟨_, .done hp, .mk _ _ _ (by simp [hreq]) (by simp [hst])⟩
  | wait hp hr hq => exact ⟨_, .wait hp hr hq, .mk _ _ _ hreq hst⟩
  | pushCompleted hs hr hend ht =>
    exact ⟨_, .pushCompleted hs hr hend ht, .mk _ _ _ (by simp [hreq]) (by simp [hst])⟩
  | pushToScript hs hr hend ht => exact ⟨_, .pushToScript hs hr hend ht, .mk _ _ _ hreq hst⟩
  | entryIssued e p hs hr hlt he hq hc =>
    exact ⟨_, .entryIssued e p hs hr hlt he hq hc, .mk _ _ _ (by simp [hreq]) (by simp [hst])⟩
  | entryFaulted e p hs hr hlt he hq hc =>
    exact ⟨_, .entryFaulted e p hs hr hlt he hq hc, .mk _ _ _ (by simp [hreq]) (by simp [hst])⟩
  | entrySkipped e hs hr hlt he hq => exact ⟨_, .entrySkipped e hs hr hlt he hq, .mk _ _ _ hreq hst⟩
  | scriptToPush hup hp hr hend => exact ⟨_, .scriptToPush hup hp hr hend, .mk _ _ _ hreq hst⟩
  | scriptCompleted hdown hp hr hend =>
    exact ⟨_, .scriptCompleted hdown hp hr hend, .mk _ _ _ (by simp [hreq]) (by simp [hst])⟩
  | stepIssued st p hs hr hread hq hc =>
    exact ⟨_, .stepIssued st p hs hr hread hq hc, .mk _ _ _ (by simp [hreq]) (by simp [hst])⟩
  | stepFaulted st p hs hr hread hq hc =>
    exact ⟨_, .stepFaulted st p hs hr hread hq hc, .mk _ _ _ (by simp [hreq]) (by simp [hst])⟩

/-- Alike states answer a command alike, and start it alike: its checks read none of the registers they differ in. -/
theorem State.Alike.accept_step {s t u : State} {c : CmdWord} {rest : List Input} (hu : s.Alike u) (hlive : s.live)
    (ha : s.canAccept = true) (hi : s.inputs = .command c :: rest) (h : step s = .next t) :
    ∃ v, step u = .next v ∧ t.Alike v := by
  obtain ⟨hphase, hp⟩ := canAccept_iff.1 ha
  obtain ⟨o, info, tr, hreq, hst⟩ := hu
  rw [acceptStepChecksInOrder s c rest hlive hphase hp hi] at h
  cases h
  refine ⟨_, acceptStepChecksInOrder _ c rest hlive hphase hp hi, ?_⟩
  repeat' apply State.Alike.ite
  all_goals exact .mk _ _ _ (by simp [hreq]) (by simp [hst])

/-- Alike states take alike steps, whatever the move. -/
theorem State.Alike.any_step {s t u : State} (hu : s.Alike u) (h : step s = .next t) :
    ∃ v, step u = .next v ∧ t.Alike v := by
  obtain ⟨hcfg, hm⟩ := step_moves h
  have hucfg : cfgCheck u.cfg = none := hu.cfg ▸ hcfg
  cases hm with
  | accept c rest t hi ha hregs => exact hu.accept_step ⟨hcfg, hregs⟩ ha hi h
  | reset rest hi =>
    obtain ⟨o, info, tr, -⟩ := hu
    exact ⟨_, step_of_reset hucfg hi, .mk _ _ _ rfl rfl⟩
  | stall rest hi => exact ⟨_, step_of_stall hucfg (hu.inputs.trans hi), hu.withInputs rest⟩
  | run rest t hi ho =>
    obtain ⟨v, hv, htv⟩ := (hu.withInputs rest).own_step ho
    exact ⟨v, (step_of_run hucfg (hu.inputs.trans hi)).trans (ownStep_of_own hv), htv⟩
  | own t hi ho =>
    obtain ⟨v, hv, htv⟩ := hu.own_step ho
    refine ⟨v, Eq.trans ?_ (ownStep_of_own hv), htv⟩
    rw [← hu.inputs, ← hu.canAccept] at hi
    obtain hi | ⟨c, rest, hi, ha⟩ := hi
    · exact step_eq_ownStep hucfg (by rw [hi]; trivial) (.inr hi)
    · exact step_eq_ownStep hucfg (by rw [hi]; trivial) (.inl ha)

/-- A run of one step and more is that step, then the run of the others. -/
theorem run_succ_next {n : Nat} {s t : State} (h : core.run (n + 1) s = .next t) :
    ∃ s', step s = .next s' ∧ core.run n s' = .next t := by
  simp only [Host.Core.run] at h
  split at h
  · exact ⟨_, ‹_›, h⟩
  · cases h
  · cases h

/-- Alike states have alike runs. -/
theorem State.Alike.run {n : Nat} {s t u : State} (hu : s.Alike u) (h : core.run n s = .next t) :
    ∃ v, core.run n u = .next v ∧ t.Alike v := by
  induction n generalizing s u with
  | zero => cases h; exact ⟨u, rfl, hu⟩
  | succ n ih =>
    obtain ⟨s', hs', hrun⟩ := run_succ_next h
    obtain ⟨u', hu', halike⟩ := hu.any_step hs'
    rw [run_succ hu']
    exact ih halike hrun

/-- SEQ accepts a command only where it is not stuck (93_implementation_defined.md U10). -/
theorem live_of_accepted {s t : State} {c : CmdWord} {rest : List Input} (h : step s = .next t)
    (hi : s.inputs = .command c :: rest) (ha : s.canAccept = true) : s.live := by
  obtain ⟨hcfg, hm⟩ := step_moves h
  refine ⟨hcfg, ?_⟩
  cases hm with
  | accept _ _ _ _ _ hregs => exact hregs
  | own t hown =>
    obtain hnone | ⟨_, _, -, hna⟩ := hown
    · simp [hi] at hnone
    · simp [ha] at hna
  | reset _ hj | stall _ hj | run _ _ hj => simp [hi] at hj

/-- A RESUME and an INITIALIZE that are both accepted lead to alike states. -/
theorem resume_alike_initialize {s t : State} {h5 h3 : CmdWord} {rest : List Input} (hq : s.phase = .idle)
    (hp : s.pend = false) (hv : s.capValid = true) (hl : s.cfg.checkTransitions = false ∨ s.lstate = .suspended)
    (hc5 : h5.toNat % 256 = 5) (hc3 : h3.toNat % 256 = 3)
    (h : step { s with inputs := .command h5 :: rest } = .next t) :
    ∃ u, step { s with inputs := .command h3 :: rest } = .next u ∧ t.Alike u := by
  have hlive : s.live :=
    live_of_accepted (s := { s with inputs := .command h5 :: rest }) h rfl (canAccept_iff.2 ⟨.inl hq, hp⟩)
  cases h.symm.trans (step_of_resume (s := { s with inputs := .command h5 :: rest }) hlive hq hp hv rfl hc5 hl)
  exact ⟨_, step_of_initialize (s := { s with inputs := .command h3 :: rest }) hlive hq hp hv rfl hc3,
    .mk _ _ _ (by simp) (by simp)⟩

/-- Settles O57: the accepted commands lead to alike states, whose runs are alike. -/
theorem resumeIsObservablyInitialize : Obligations.ResumeIsObservablyInitialize := by
  intro n s t h5 h3 rest hq hp hv hl hc5 hc3 h
  cases n with
  | zero => cases h; exact ⟨_, rfl, rfl, rfl, rfl, rfl, rfl, rfl⟩
  | succ n =>
    obtain ⟨t', ht', hrun⟩ := run_succ_next h
    obtain ⟨u', hu', halike⟩ := resume_alike_initialize hq hp hv hl hc5 hc3 ht'
    obtain ⟨v, hrun', o, info, tr, hreq, hst⟩ := halike.run hrun
    exact ⟨_, (run_succ hu').trans hrun', hreq, hst, rfl, rfl, rfl, rfl⟩

end Sys2Proof.Machine
end

section
/-! The runs of INITIALIZE and SUSPEND to their good ends: the accept step, then a script and a push, or a push and a
script, each to its end (42_lifecycle.md R155, R156, R164; 20_memory.md R61, R62). -/

namespace Sys2Proof.Machine

/-! ## Runs and steps of a busy block -/

/-- A run and a run from its end are one run. -/
theorem run_trans {a b : Nat} {s t u : State} (h : core.run a s = .next t) (h' : core.run b t = .next u) :
    core.run (a + b) s = .next u := (run_add (M := core) h).trans h'

/-- While the block is busy, and HOST alone waits, each own step that its guards allow is the step. -/
theorem step_of_own {s t : State} (h : Own s t) (hc : cfgCheck s.cfg = none) (hb : s.phase.isBusy = true)
    (hi : onlyHost s.inputs) : step s = .next t := by
  rw [step_eq_ownStep hc hi (.inl (canAccept_of_busy hb)), ownStep_of_own h]

/-- No register holds a reserved value after updates that put the block in a busy phase and keep `LSTATE`, `STATUS` and
`FAULT_CODE`. -/
theorem State.live.of_busy {s t : State} (h : s.live) (hcfg : t.cfg = s.cfg) (hlstate : t.lstate = s.lstate)
    (hstatus : t.status = s.status) (hcode : t.faultCode = s.faultCode) (hb : t.phase.isBusy = true) : t.live := by
  obtain ⟨hok, hregs⟩ := h
  obtain ⟨hl, -, -, hst, hf⟩ := reservedHeld_iff.1 hregs
  refine ⟨hcfg ▸ hok, reservedHeld_iff.2 ⟨hlstate ▸ hl, ?_, ?_, hstatus ▸ hst, hcode ▸ hf⟩⟩
  · exact fun hq => absurd (hq ▸ hb) (by decide)
  · exact fun hq => absurd (hq ▸ hb) (by decide)

/-- A completion to a legal lifecycle state leaves no reserved value. -/
theorem State.live.complete {s : State} (h : s.live) {l : LState} (hl : l ≠ .reserved3) : (complete l s).live := by
  obtain ⟨hok, hregs⟩ := h
  obtain ⟨-, -, -, -, hf⟩ := reservedHeld_iff.1 hregs
  exact ⟨hok, reservedHeld_iff.2 ⟨hl, nofun, nofun, List.mem_cons_self, hf⟩⟩

/-- The counts of a block's configuration are within its tables (30_encoding.md R80, WF3). -/
theorem State.live.counts_le {s : State} (h : s.live) :
    s.cfg.initCount.toNat ≤ s.cfg.initTable.length ∧ s.cfg.suspCount.toNat ≤ s.cfg.suspTable.length := by
  obtain ⟨hok, -⟩ := h
  obtain ⟨-, -, hwf3, -⟩ := cfgCheck_none_iff.1 hok
  obtain ⟨hinit, hsusp, -⟩ := wf3_iff.1 hwf3
  exact ⟨hinit, hsusp⟩

/-! ## A script with the steps `sts` left -/

/-- The block stands at a script step with exactly the steps `sts` left to run, and HOST alone may wait with a move. -/
structure State.ScriptLeft (s : State) (sts : List ScriptStep) : Prop where
  live : s.live
  canScript : s.canScript = true
  host : onlyHost s.inputs
  left : s.script.drop s.sidx.toNat = sts

section
variable {s : State}

/-- With no step left the index is at the end of the script. -/
theorem State.ScriptLeft.length_le (h : s.ScriptLeft []) : s.script.length ≤ s.sidx.toNat :=
  List.drop_eq_nil_iff.1 h.left

section
variable {st : ScriptStep} {sts : List ScriptStep} (h : s.ScriptLeft (st :: sts))
include h

/-- The first step left is the one at the index. -/
theorem State.ScriptLeft.read : scriptRead s s.sidx.toNat = some st := by
  rw [scriptRead, ← List.head?_drop, h.left, List.head?_cons]

/-- After the first step the later ones are left, whatever request and events it made. -/
theorem State.ScriptLeft.advance (r : Request) (tr : List Event) :
    State.ScriptLeft { s with req := r, sidx := s.sidx + 1, trace := tr } sts := by
  obtain ⟨hlt, -⟩ := List.getElem?_eq_some_iff.1 h.read
  obtain ⟨hcfg, -⟩ := h.live
  have hsucc := toNat_succ_of_lt_length hlt (script_length_lt hcfg)
  have hleft : s.script.drop (s.sidx + 1).toNat = sts := by
    rw [hsucc, ← List.tail_drop, h.left, List.tail_cons]
  exact ⟨h.live, h.canScript, h.host, hleft⟩

/-- One script step with its capability present: a step that issues its request, and one in which ENV completes it
(41_power_script.md R130, 40_table_interpreter.md R108). -/
theorem State.ScriptLeft.run_step {p : Request} (hq : stepRequest st = some p) (hc : s.hasCap p = true) :
    core.run 2 s = .next { s with req := p, sidx := s.sidx + 1, trace := s.trace ++ [.req p, .done] } := by
  obtain ⟨hcfg, hregs⟩ := h.live
  obtain ⟨hbusy, hpend⟩ := busy_of_canScript h.canScript
  have hissue := step_of_own (.stepIssued st p h.canScript hregs h.read hq hc) hcfg hbusy h.host
  have hdone := step_done (s := advanceSidx (putRequest p s)) hcfg rfl hbusy h.host
  refine (run_succ hissue).trans ((run_succ hdone).trans ?_)
  simp [run_zero, envDone, advanceSidx, putRequest, logEvent, hpend]

end

/-- The steps left run in index order, each request completed before the next, up to the end of the script; only `REQ`,
`SIDX` and the trace are written (20_memory.md R61, R62). -/
theorem State.ScriptLeft.run {sts : List ScriptStep} (h : s.ScriptLeft sts)
    (hcaps : s.hasCaps (scriptRequests sts) = true) :
    ∃ r i, s.script.length ≤ i.toNat ∧ core.run (sts.length + (scriptRequests sts).length) s = .next { s with
      req := r, sidx := i, trace := s.trace ++ completedTrace (scriptRequests sts) } := by
  induction sts generalizing s with
  | nil => exact ⟨s.req, s.sidx, h.length_le, by simp [scriptRequests, completedTrace, run_zero]⟩
  | cons st sts ih =>
    obtain ⟨p, hq⟩ := stepRequest_of_fits (stepFits_of_read h.live.1 h.read)
    have hcons : scriptRequests (st :: sts) = [p] ++ scriptRequests sts := List.filterMap_cons_some hq
    rw [hcons, hasCaps_append] at hcaps
    obtain ⟨hfirst, hlater⟩ := hcaps
    have hrun := h.run_step hq (by simpa [State.hasCaps] using hfirst)
    obtain ⟨r, i, hend, hrest⟩ := ih (h.advance p _) hlater
    refine ⟨r, i, hend, ?_⟩
    rw [hcons, List.length_append, List.length_cons, List.length_singleton, completedTrace_append, ← List.append_assoc,
      show ∀ a b : Nat, a + 1 + (1 + b) = 2 + (a + b) by omega]
    exact run_trans hrun hrest

/-! ## A whole script and a whole push -/

/-- In a push phase with no request outstanding, and no move but HOST's, the step at the end of the push is PushDone
(40_table_interpreter.md R109). -/
theorem step_of_push_end (hlive : s.live) (hs : s.canPush = true) (hi : onlyHost s.inputs)
    (hend : s.count.toNat ≤ s.idx.toNat) : step s = .next (pushDone s) := by
  rw [step_eq_pushStep hlive hs hi, pushStep_of_end hend]

/-- A script whose capabilities are present runs from its start to its end, and ends (R130, R137). -/
theorem run_script (hlive : s.live) (hs : s.canScript = true) (hz : s.sidx = 0) (hi : onlyHost s.inputs)
    {sts : List ScriptStep} (hsts : s.script = sts) (hcaps : s.hasCaps (scriptRequests sts) = true) :
    ∃ r i, core.run (sts.length + (scriptRequests sts).length + 1) s = .next (scriptDone { s with
      req := r, sidx := i, trace := s.trace ++ completedTrace (scriptRequests sts) }) := by
  have hleft : s.ScriptLeft sts := ⟨hlive, hs, hi, by simp [hz, hsts]⟩
  obtain ⟨r, i, hend, hrun⟩ := hleft.run hcaps
  have hdone := step_of_script_end (s := { s with
    req := r, sidx := i, trace := s.trace ++ completedTrace (scriptRequests sts) }) hlive hs hi hend
  exact ⟨r, i, run_trans hrun (run_succ hdone)⟩

/-- A push whose capabilities are present runs from its start to its end, and ends (40_table_interpreter.md R109,
R110). -/
theorem run_push (hlive : s.live) (hs : s.canPush = true) (hz : s.idx = 0) (hi : onlyHost s.inputs)
    (hcount : s.count.toNat ≤ (s.tsel.entries s.cfg).length) {ps : List Request}
    (hps : tableRequests s.cfg.ops s.force ((s.tsel.entries s.cfg).take s.count.toNat) = ps)
    (hcaps : s.hasCaps ps = true) :
    ∃ r, core.run (s.count.toNat + ps.length + 1) s = .next (pushDone { s with
      req := r, idx := s.count, trace := s.trace ++ completedTrace ps }) := by
  subst hps
  have hleft : s.PushLeft ((s.tsel.entries s.cfg).take s.count.toNat) :=
    ⟨hlive, hs, hi, hcount, by simp [hz], by simp [hz]⟩
  obtain ⟨r, hrun⟩ := hleft.run hcaps
  rw [List.length_take_of_le hcount] at hrun
  have hdone := step_of_push_end (s := { s with
    req := r, idx := s.count
    trace := s.trace ++ completedTrace
      (tableRequests s.cfg.ops s.force ((s.tsel.entries s.cfg).take s.count.toNat)) }) hlive hs hi le_rfl
  exact ⟨r, run_trans hrun (run_succ hdone)⟩

/-- From the start of the power-up script the block runs the script and the init push and completes to `ACTIVE`
(42_lifecycle.md R155). -/
theorem run_powerUp (hlive : s.live) (hq : s.phase = .pwrUp) (hp : s.pend = false) (hz : s.sidx = 0)
    (hi : onlyHost s.inputs) (hcaps : s.hasCaps (powerUpRequests s.cfg) = true) :
    ∃ r i, core.run (2 + s.cfg.upScript.length + s.cfg.initCount.toNat + (powerUpRequests s.cfg).length) s =
      .next (complete .active { startPush .init s.cfg.initCount true s with
        req := r, sidx := i, idx := s.cfg.initCount
        trace := s.trace ++ completedTrace (powerUpRequests s.cfg) }) := by
  obtain ⟨hinit, -⟩ := hlive.counts_le
  rw [powerUpRequests, hasCaps_append] at hcaps
  obtain ⟨hscript, htable⟩ := hcaps
  obtain ⟨r, i, hup⟩ := run_script hlive (canScript_iff.2 ⟨.inl hq, hp⟩) hz hi (script_of_pwrUp hq) hscript
  have hup' := hup.trans (congrArg _ (scriptDone_of_pwrUp (by exact hq)))
  obtain ⟨r', hpush⟩ := run_push (s := startPush .init s.cfg.initCount true { s with
      req := r, sidx := i, trace := s.trace ++ completedTrace (scriptRequests s.cfg.upScript) })
    (hlive.of_busy rfl rfl rfl rfl rfl) (canPush_iff.2 ⟨.inl rfl, hp⟩) rfl hi hinit rfl htable
  refine ⟨r', i, ?_⟩
  rw [powerUpRequests, List.length_append, completedTrace_append, ← List.append_assoc,
    show ∀ a b c d : Nat, 2 + a + b + (c + d) = (a + c + 1) + (b + d + 1) by omega]
  exact run_trans hup' hpush

/-- From the start of the suspend push the block runs the push and the power-down script and completes to `SUSPENDED`
(42_lifecycle.md R156). -/
theorem run_powerDown (hlive : s.live) (hq : s.phase = .pushSusp) (hp : s.pend = false) (hz : s.idx = 0)
    (hi : onlyHost s.inputs) (htsel : s.tsel = .susp) (hcount : s.count = s.cfg.suspCount)
    (hforce : s.force = s.cfg.suspForce) (hcaps : s.hasCaps (powerDownRequests s.cfg) = true) :
    ∃ r i, core.run (2 + s.cfg.downScript.length + s.count.toNat + (powerDownRequests s.cfg).length) s =
      .next (complete .suspended { startScript .pwrDown s with
        req := r, idx := s.count, sidx := i
        trace := s.trace ++ completedTrace (powerDownRequests s.cfg) }) := by
  obtain ⟨-, hsusp⟩ := hlive.counts_le
  rw [powerDownRequests, hasCaps_append] at hcaps
  obtain ⟨htable, hscript⟩ := hcaps
  obtain ⟨r, hpush⟩ := run_push hlive (canPush_iff.2 ⟨.inr hq, hp⟩) hz hi (by rwa [htsel, hcount])
    (by rw [htsel, hcount, hforce]; rfl) htable
  have hpush' := hpush.trans (congrArg _ (pushDone_of_susp (by exact htsel)))
  obtain ⟨r', i, hdown⟩ := run_script (s := startScript .pwrDown { s with
      req := r, idx := s.count
      trace := s.trace ++ completedTrace
        (tableRequests s.cfg.ops s.cfg.suspForce (s.cfg.suspTable.take s.cfg.suspCount.toNat)) })
    (hlive.of_busy rfl rfl rfl rfl rfl) (canScript_iff.2 ⟨.inr rfl, hp⟩) rfl hi (script_of_pwrDown rfl) hscript
  refine ⟨r', i, ?_⟩
  rw [powerDownRequests, List.length_append, completedTrace_append, ← List.append_assoc,
    show ∀ a b c d : Nat, 2 + a + b + (c + d) = (b + c + 1) + (a + d + 1) by omega]
  exact run_trans hpush' hdown

end

/-! ## The two commands -/

/-- The block waits for a command and has its Capability Table: where a busy command may start, and where one that took
no fault ends. -/
structure State.Ready (s : State) : Prop where
  live : s.live
  idle : s.phase = .idle
  noRequest : s.pend = false
  noFault : s.fault = false
  configured : s.capValid = true

theorem State.Inv.ready {s : State} (h : s.Inv) (hq : s.phase = .idle) (hv : s.capValid = true) : s.Ready where
  live := ⟨h.cfgOk, h.legalRegisters⟩
  idle := hq
  noRequest := by
    rw [Bool.eq_false_iff]
    intro hp
    exact absurd (hq ▸ h.pendBusy hp) (by decide)
  noFault := by
    rw [Bool.eq_false_iff, ne_eq, h.faultPhase, hq]
    decide
  configured := hv

/-- The block has ended a busy command with `ST_OK`: it is ready again, in lifecycle state `l`, with `es` appended to
the trace and the moves `rest` to come; the Capability Table and CFG are kept. -/
structure State.Completes (s t : State) (l : LState) (es : List Event) (rest : List Input) : Prop where
  ready : t.Ready
  lstate : t.lstate = l
  status : t.status = 0x00
  trace : t.trace = s.trace ++ es
  caps : t.caps = s.caps
  cfg : t.cfg = s.cfg
  inputs : t.inputs = rest

section
variable {s : State} {h : CmdWord} {rest : List Input} (hs : s.Ready) (hi : s.inputs = .command h :: rest)
  (hhost : onlyHost rest)
include hs hi hhost

/-- The run of an INITIALIZE whose capabilities are present (R155). -/
theorem State.Ready.run_initialize (hc : h.toNat % 256 = 3) (hcaps : s.hasCaps (powerUpRequests s.cfg) = true) :
    ∃ t, core.run (3 + s.cfg.upScript.length + s.cfg.initCount.toNat + (powerUpRequests s.cfg).length) s = .next t ∧
      s.Completes t .active ([.cmd h] ++ completedTrace (powerUpRequests s.cfg) ++ [.rsp 0x00 none]) rest := by
  have haccept := step_of_initialize hs.live hs.idle hs.noRequest hs.configured hi hc
  obtain ⟨r, i, hrun⟩ := run_powerUp (s := { s with
      inputs := rest, curOp := 3, sidx := 0, phase := .pwrUp, trace := s.trace ++ [.cmd h] })
    (hs.live.of_busy rfl rfl rfl rfl rfl) rfl hs.noRequest rfl hhost hcaps
  rw [show ∀ a b c : Nat, 3 + a + b + c = (2 + a + b + c) + 1 by omega]
  refine ⟨_, (run_succ haccept).trans hrun, ?_, rfl, rfl, by simp [stOk], rfl, rfl, rfl⟩
  refine ⟨State.live.complete ?_ nofun, rfl, hs.noRequest, hs.noFault, hs.configured⟩
  exact hs.live.of_busy rfl rfl rfl rfl rfl

/-- The run of an allowed SUSPEND whose capabilities are present (R156). -/
theorem State.Ready.run_suspend (hl : s.cfg.checkTransitions = false ∨ s.lstate = .active) (hc : h.toNat % 256 = 4)
    (hcaps : s.hasCaps (powerDownRequests s.cfg) = true) :
    ∃ t, core.run (3 + s.cfg.downScript.length + s.cfg.suspCount.toNat + (powerDownRequests s.cfg).length) s = .next t ∧
      s.Completes t .suspended ([.cmd h] ++ completedTrace (powerDownRequests s.cfg) ++ [.rsp 0x00 none]) rest := by
  have haccept := step_of_suspend hs.live hs.idle hs.noRequest hs.configured hi hc hl
  obtain ⟨r, i, hrun⟩ := run_powerDown (s := { s with
      inputs := rest, curOp := 4, tsel := .susp, count := s.cfg.suspCount, force := s.cfg.suspForce, idx := 0
      phase := .pushSusp, trace := s.trace ++ [.cmd h] })
    (hs.live.of_busy rfl rfl rfl rfl rfl) rfl hs.noRequest rfl hhost rfl rfl rfl hcaps
  rw [show ∀ a b c : Nat, 3 + a + b + c = (2 + a + b + c) + 1 by omega]
  refine ⟨_, (run_succ haccept).trans hrun, ?_, rfl, rfl, by simp [stOk], rfl, rfl, rfl⟩
  refine ⟨State.live.complete ?_ nofun, rfl, hs.noRequest, hs.noFault, hs.configured⟩
  exact hs.live.of_busy rfl rfl rfl rfl rfl

end

/-- Settles O54: the run of INITIALIZE from a state of the invariant, which is ready for it. -/
theorem initializeRunsToCompletion : Obligations.InitializeRunsToCompletion := by
  intro s h rest hinv hq hv hi hhost hc hcaps
  obtain ⟨t, hrun, hready, hl, hst, htr, hcap, hcfg, hin⟩ := (hinv.ready hq hv).run_initialize hi hhost hc hcaps
  exact ⟨t, hrun, by simp [htr], hl, hready.idle, hready.noRequest, hready.noFault, hst, hcap, hcfg, hin⟩

/-- Settles O55: the run of SUSPEND from a state of the invariant, which is ready for it. -/
theorem suspendRunsToCompletion : Obligations.SuspendRunsToCompletion := by
  intro s h rest hinv hq hv hl hi hhost hc hcaps
  obtain ⟨t, hrun, hready, hl', hst, htr, hcap, hcfg, hin⟩ :=
    (hinv.ready hq hv).run_suspend hi hhost hl hc hcaps
  exact ⟨t, hrun, by simp [htr], hl', hready.idle, hready.noRequest, hready.noFault, hst, hcap, hcfg, hin⟩

/-- Settles O58: INITIALIZE ends ready and `ACTIVE`, with the Capability Table and CFG kept, so SUSPEND is allowed there
and has its capabilities. -/
theorem initializeThenSuspend : Obligations.InitializeThenSuspend := by
  intro s h3 h4 hinv hq hv hi hc3 hc4 hup hdown
  obtain ⟨t, hrun, ht⟩ := (hinv.ready hq hv).run_initialize hi trivial hc3 hup
  have hdown' : t.hasCaps (powerDownRequests t.cfg) = true := by
    simpa [State.hasCaps, State.hasCap, ht.caps, ht.cfg] using hdown
  obtain ⟨u, hrun', hu⟩ := ht.ready.run_suspend ht.inputs trivial (.inr ht.lstate) hc4 hdown'
  refine ⟨_, u, run_trans hrun hrun', ⟨hu.ready.idle, hu.ready.noRequest, hu.ready.noFault, hu.inputs⟩, hu.lstate, ?_⟩
  simp [hu.trace, ht.trace, ht.cfg]

end Sys2Proof.Machine
end

section
/-! The fault entry: when a step takes the fault and what it writes, and the run of an INITIALIZE that meets a missing
capability (60_exceptions.md R195, R196). -/

namespace Sys2Proof.Machine

/-! ## Which steps take the fault -/

/-- An own step that sets `FAULT` is a push or script step, with no request outstanding, whose request needs a missing
capability; the step is the fault entry. -/
theorem own_takes_fault {s t : State} (h : Own s t) (hs : s.fault = false) (ht : t.fault = true) :
    s.pend = false ∧ s.phase.isBusy = true ∧ ∃ p, s.hasCap p = false ∧ t = takeFault (faultRecord p s) s := by
  cases h with
  | entryFaulted e p hc _ _ _ _ hcap =>
    obtain ⟨hbusy, hpend⟩ := busy_of_canPush hc
    exact ⟨hpend, hbusy, p, hcap, rfl⟩
  | stepFaulted st p hc _ _ _ hcap =>
    obtain ⟨hbusy, hpend⟩ := busy_of_canScript hc
    exact ⟨hpend, hbusy, p, hcap, rfl⟩
  | done | wait | pushCompleted | pushToScript | entryIssued | entrySkipped | scriptToPush | scriptCompleted
  | stepIssued => exact absurd (hs.symm.trans ht) (by decide)

/-- An accept step takes no fault. -/
theorem accept_fault {s t : State} {c : CmdWord} (h : Accept s c t) : t.fault = s.fault := by
  cases h with
  | faulted | bad => rfl
  | command i t _ _ hc => cases hc <;> rfl

/-- Settles O49: of the four kinds of step, only an own step sets `FAULT`, and it is then the fault entry for its
request, whose kind is the number of the missing capability. -/
theorem faultEntryIsPrecise : Obligations.FaultEntryIsPrecise := by
  intro s t h hs ht
  have hset : t.fault ≠ s.fault := by simp [hs, ht]
  obtain ⟨rest, ⟨-, rfl⟩ | rfl | ho | ⟨c, -, -, ha⟩⟩ := step_kinds h
  · exact absurd hs.symm hset
  · exact absurd rfl hset
  · obtain ⟨hpend, hbusy, p, hcap, rfl⟩ := own_takes_fault ho hs ht
    exact ⟨hpend, hbusy, BitVec.ofNat 3 p.kind, (kind_ofNat p).trans_le p.kind_le, by rwa [kind_ofNat], rfl⟩
  · exact absurd (accept_fault ha) hset

/-! ## Runs that complete requests within a command -/

/-- A run leads from `s` to `u` within one busy command: the requests `ps` are issued, each completed before the next,
and `LSTATE`, `CUR_OP`, `CAPS` and `PEND` are as before. -/
structure State.Reaches (s u : State) (ps : List Request) : Prop where
  run : ∃ n, core.run n s = .next u
  trace : u.trace = s.trace ++ completedTrace ps
  lstate : u.lstate = s.lstate
  curOp : u.curOp = s.curOp
  caps : u.caps = s.caps
  pend : u.pend = s.pend

theorem State.Reaches.refl (s : State) : s.Reaches s [] :=
  ⟨⟨0, run_zero s⟩, (List.append_nil _).symm, rfl, rfl, rfl, rfl⟩

theorem State.Reaches.trans {s u v : State} {ps qs : List Request} (h : s.Reaches u ps) (h' : u.Reaches v qs) :
    s.Reaches v (ps ++ qs) where
  run := by
    obtain ⟨m, hm⟩ := h.run
    obtain ⟨n, hn⟩ := h'.run
    exact ⟨m + n, run_trans hm hn⟩
  trace := by rw [h'.trace, h.trace, completedTrace_append, List.append_assoc]
  lstate := h'.lstate.trans h.lstate
  curOp := h'.curOp.trans h.curOp
  caps := h'.caps.trans h.caps
  pend := h'.pend.trans h.pend

/-- From `s` the requests `ps` are issued and completed, and the next step takes the fault for `p`. -/
def State.FaultsAfter (s : State) (ps : List Request) (p : Request) : Prop :=
  ∃ u, s.Reaches u ps ∧ step u = .next (takeFault (faultRecord p u) u)

theorem State.Reaches.faultsAfter {s u : State} {ps qs : List Request} {p : Request} (h : s.Reaches u ps)
    (h' : u.FaultsAfter qs p) : s.FaultsAfter (ps ++ qs) p := by
  obtain ⟨v, hv, hfault⟩ := h'
  exact ⟨v, h.trans hv, hfault⟩

/-! ## Where the first missing capability is met -/

/-- An element of two lists in a row is one of the first, or one of the second with the whole first list before it. -/
theorem append_eq_append_cons {α : Type} {xs ys pre post : List α} {p : α} (h : xs ++ ys = pre ++ p :: post) :
    (∃ mid, xs = pre ++ p :: mid) ∨ ∃ mid, pre = xs ++ mid ∧ ys = mid ++ p :: post := by
  obtain ⟨mid, hpre, hys⟩ | ⟨bs, hxs, hbs⟩ := List.append_eq_append_iff.1 h
  · exact .inr ⟨mid, hpre, hys⟩
  · cases bs with
    | nil => exact .inr ⟨[], by simpa using hxs.symm, by simpa using hbs.symm⟩
    | cons b bs =>
      obtain ⟨rfl, -⟩ := List.cons.inj hbs
      exact .inl ⟨bs, hxs⟩

/-- The one element an optional value may hold has nothing before it. -/
theorem eq_nil_of_toList_eq_append_cons {α : Type} {o : Option α} {pre mid : List α} {p : α}
    (h : o.toList = pre ++ p :: mid) : pre = [] ∧ o = some p := by
  cases o with
  | none => simp at h
  | some q =>
    cases pre with
    | nil =>
      obtain ⟨rfl, -⟩ := List.cons.inj h
      exact ⟨rfl, rfl⟩
    | cons r pre => simp at h

section
variable {s : State} {pre post : List Request} {p : Request} (hpre : s.hasCaps pre = true) (hp : s.hasCap p = false)
include hpre hp

/-- A script that meets a missing capability completes the requests before it and takes the fault there (R130, R195). -/
theorem State.ScriptLeft.faultsAfter {sts : List ScriptStep} (h : s.ScriptLeft sts)
    (hreqs : scriptRequests sts = pre ++ p :: post) : s.FaultsAfter pre p := by
  induction sts generalizing s pre with
  | nil => simp [scriptRequests] at hreqs
  | cons st sts ih =>
    obtain ⟨hcfg, hregs⟩ := h.live
    obtain ⟨q, hq⟩ := stepRequest_of_fits (stepFits_of_read hcfg h.read)
    have hcons : scriptRequests (st :: sts) = [q] ++ scriptRequests sts := List.filterMap_cons_some hq
    obtain ⟨mid, hhere⟩ | ⟨pre', rfl, hlater⟩ := append_eq_append_cons (hcons ▸ hreqs)
    · obtain ⟨rfl, hqp⟩ := eq_nil_of_toList_eq_append_cons (o := some q) hhere
      exact ⟨s, .refl s, step_of_own (.stepFaulted st p h.canScript hregs h.read (hq.trans hqp) hp) hcfg
        (busy_of_canScript h.canScript).1 h.host⟩
    · rw [hasCaps_append] at hpre
      obtain ⟨hfirst, hrest⟩ := hpre
      have hreach : s.Reaches _ [q] :=
        ⟨⟨2, h.run_step hq (by simpa [State.hasCaps] using hfirst)⟩, rfl, rfl, rfl, rfl, rfl⟩
      exact hreach.faultsAfter (ih hrest hp (h.advance q _) hlater)

/-- A push that meets a missing capability completes the requests before it and takes the fault there (R102, R195). -/
theorem State.PushLeft.faultsAfter {es : List Entry} (h : s.PushLeft es)
    (hreqs : tableRequests s.cfg.ops s.force es = pre ++ p :: post) : s.FaultsAfter pre p := by
  induction es generalizing s pre with
  | nil => simp [tableRequests] at hreqs
  | cons e es ih =>
    obtain ⟨hcfg, hregs⟩ := h.live
    rw [tableRequests_cons] at hreqs
    obtain ⟨mid, hhere⟩ | ⟨pre', rfl, hlater⟩ := append_eq_append_cons hreqs
    · obtain ⟨rfl, hq⟩ := eq_nil_of_toList_eq_append_cons hhere
      obtain ⟨hlt, hread⟩ := h.read
      exact ⟨s, .refl s, step_of_own (.entryFaulted e p h.canPush hregs hlt hread hq hp) hcfg
        (busy_of_canPush h.canPush).1 h.host⟩
    · rw [hasCaps_append] at hpre
      obtain ⟨hfirst, hrest⟩ := hpre
      obtain ⟨r, hrun⟩ := h.run_entry hfirst
      have hreach : s.Reaches _ (requestOf s.force (decodeEntry s.cfg.ops e)).toList :=
        ⟨⟨_, hrun⟩, rfl, rfl, rfl, rfl, rfl⟩
      exact hreach.faultsAfter (ih hrest hp (h.advance r _) hlater)

/-- From the start of the power-up script the first missing capability is met in the script, or in the init push after
the whole script (42_lifecycle.md R155). -/
theorem powerUp_faultsAfter (hlive : s.live) (hq : s.phase = .pwrUp) (hpend : s.pend = false) (hz : s.sidx = 0)
    (hi : onlyHost s.inputs) (hreqs : powerUpRequests s.cfg = pre ++ p :: post) : s.FaultsAfter pre p := by
  have hs : s.canScript = true := canScript_iff.2 ⟨.inl hq, hpend⟩
  obtain ⟨mid, hscript⟩ | ⟨pre', rfl, htable⟩ := append_eq_append_cons hreqs
  · have hleft : s.ScriptLeft s.cfg.upScript := ⟨hlive, hs, hi, by simp [hz, script_of_pwrUp hq]⟩
    exact hleft.faultsAfter hpre hp hscript
  · rw [hasCaps_append] at hpre
    obtain ⟨hbefore, hrest⟩ := hpre
    obtain ⟨r, i, hrun⟩ := run_script hlive hs hz hi (script_of_pwrUp hq) hbefore
    rw [scriptDone_of_pwrUp (by exact hq)] at hrun
    have hreach : s.Reaches _ (scriptRequests s.cfg.upScript) := ⟨⟨_, hrun⟩, rfl, rfl, rfl, rfl, rfl⟩
    obtain ⟨hinit, -⟩ := hlive.counts_le
    have hleft : State.PushLeft (startPush .init s.cfg.initCount true { s with
        req := r, sidx := i, trace := s.trace ++ completedTrace (scriptRequests s.cfg.upScript) })
        (s.cfg.initTable.take s.cfg.initCount.toNat) :=
      ⟨hlive.of_busy rfl rfl rfl rfl rfl, canPush_iff.2 ⟨.inl rfl, hpend⟩, hi, hinit, Nat.zero_le _, rfl⟩
    exact hreach.faultsAfter (hleft.faultsAfter hrest hp htable)

end

/-- Settles O56: the accept step starts the power-up script, and the fault entry ends the run at the missing
capability. -/
theorem initializeStopsAtAMissingCapability : Obligations.InitializeStopsAtAMissingCapability := by
  intro s h pre post p hinv hq hv hi hc hreqs hpre hp
  have hs := hinv.ready hq hv
  have haccept := step_of_initialize hs.live hq hs.noRequest hv hi hc
  obtain ⟨u, hu, hfault⟩ := powerUp_faultsAfter (s := { s with
      inputs := [], curOp := 3, sidx := 0, phase := .pwrUp, trace := s.trace ++ [.cmd h] })
    hpre hp (hs.live.of_busy rfl rfl rfl rfl rfl) rfl hs.noRequest rfl trivial hreqs
  obtain ⟨n, hrun⟩ := hu.run
  have hstop := run_trans hrun ((run_succ hfault).trans (run_zero _))
  refine ⟨_, _, (run_succ haccept).trans hstop, ?_, rfl, rfl, rfl, hu.curOp, rfl, hu.lstate, hu.caps,
    hu.pend.trans hs.noRequest, rfl⟩
  rw [takeFault_trace, hu.trace]
  rfl

end Sys2Proof.Machine
end

section
/-! Reset and the fault: what reset makes of every state, and that nothing else clears `FAULT` or leaves `FAULTED`
(70_reset_and_hazards.md R220, 60_exceptions.md R197). -/

namespace Sys2Proof.Machine

/-! ## Steps without reset keep the fault -/

section
variable {s t : State}

/-- An own step either leaves `FAULT` as it is or takes the fault, so it never clears it. -/
theorem own_keeps_fault (h : Own s t) (hs : s.fault = true) : t.fault = true := by
  cases h with
  | entryFaulted | stepFaulted => rfl
  | done | wait | pushCompleted | pushToScript | entryIssued | entrySkipped | scriptToPush | scriptCompleted
  | stepIssued => exact hs

/-- In `FAULTED` there is no push and no script step: an own step is ENV's, or the block waits. -/
theorem own_of_faulted (h : Own s t) (hq : s.phase = .faulted) : t = envDone s ∨ t = s := by
  cases h with
  | done => exact .inl rfl
  | wait => exact .inr rfl
  | pushCompleted hc | pushToScript hc | entryIssued _ _ hc | entryFaulted _ _ hc | entrySkipped _ hc =>
    simp [canPush_iff, hq] at hc
  | stepIssued _ _ hc | stepFaulted _ _ hc => simp [canScript_iff, hq] at hc
  | scriptToPush hscript | scriptCompleted hscript => simp [hq] at hscript

/-- In `FAULTED` every accepted command is rejected with `ST_FAULTED` (42_lifecycle.md R152). -/
theorem accept_of_faulted {c : CmdWord} (h : Accept s c t) (hq : s.phase = .faulted) :
    t = reject stFaulted .faulted (logEvent (.cmd c) s) := by
  cases h with
  | faulted => rfl
  | bad hidle | command _ _ hidle => simp [hq] at hidle

/-- Every step but reset keeps `FAULT` set. -/
theorem step_keeps_fault (h : step s = .next t) (hr : s.inputs.head? ≠ some .reset) (hs : s.fault = true) :
    t.fault = true := by
  obtain ⟨rest, ⟨hreset, -⟩ | rfl | ho | ⟨c, -, -, ha⟩⟩ := step_kinds h
  · exact absurd hreset hr
  · exact hs
  · exact own_keeps_fault ho hs
  · exact (accept_fault ha).trans hs

/-- Every step but reset keeps `FAULTED`. -/
theorem step_keeps_faulted (h : step s = .next t) (hr : s.inputs.head? ≠ some .reset) (hq : s.phase = .faulted) :
    t.phase = .faulted := by
  obtain ⟨rest, ⟨hreset, -⟩ | rfl | ho | ⟨c, -, -, ha⟩⟩ := step_kinds h
  · exact absurd hreset hr
  · exact hq
  · obtain rfl | rfl := own_of_faulted ho hq <;> exact hq
  · rw [accept_of_faulted ha hq]
    rfl

end

/-- Settles O2: a reset step is `resetState`, which takes every register from the reset state, and each other kind of
step keeps `FAULT` set and `FAULTED`. -/
theorem resetActsInEveryStateAndAloneClearsTheFault : Obligations.ResetActsInEveryStateAndAloneClearsTheFault := by
  refine ⟨fun s rest hc hi => ⟨_, step_of_reset hc hi, ?_⟩, fun s t h hr =>
    ⟨step_keeps_fault h hr, step_keeps_faulted h hr⟩⟩
  exact ⟨rfl, rfl, rfl, rfl, rfl, rfl, rfl, rfl, rfl, rfl, rfl, rfl, rfl, rfl, rfl, rfl, rfl⟩

end Sys2Proof.Machine
end

section
/-! Decoding undoes encoding, format by format (30_encoding.md R70 to R77). -/

namespace Sys2Proof

open Machine

/-! ## The three formats -/

/-- The image of an entry that fits the buffer decodes as the entry does (30_encoding.md R72, R73, R79). -/
theorem decode_entry_image {ops : ReservedOps} {e : Entry} (h : entryFits ops e = true) :
    decode ops .e e.toBytes = .ok (decodeEntry ops e) := by
  have himage : Entry.ofBytes e.toBytes = some e := by simpa using Entry.ofBytes_toBytes e []
  simp only [decode, decodeEntryBytes, himage]
  obtain ⟨-, he⟩ | ⟨-, -, he⟩ | ⟨-, -, -, he⟩ | ⟨h1, h2, h3, he⟩ := decodeEntry_cases ops e <;> rw [he]
  exact if_neg ((entryFits_iff ops e).1 h h1 h2 h3).not_gt

/-- The image of a script step decodes as the step does (30_encoding.md R75). -/
theorem decode_step_image (ops : ReservedOps) (st : ScriptStep) : decode ops .s st.toBytes = decodeStep st := by
  have himage : ScriptStep.ofBytes st.toBytes = some st := by simpa using ScriptStep.ofBytes_toBytes st []
  simp only [decode, himage]

/-- The bytes of a command word decode as the word does (30_encoding.md R77; log entry 13). -/
theorem decode_command_image (ops : ReservedOps) (h : CmdWord) : decode ops .h (cmdBytes h) = decodeCommand h := by
  have himage : cmdOfBytes (cmdBytes h) = some h := by simpa using cmdOfBytes_cmdBytes h []
  simp only [decode, himage]

/-! ## The operands -/

/-- A WRITE is well-formed when its opcode is not reserved and it carries exactly `count` bytes, at most 64 (R79). -/
theorem wellFormed_write_iff {ops : ReservedOps} {op : U32} {k : Byte} {ps : List Byte} :
    (Instr.write op k ps).wellFormed ops ↔ ops.holds op = false ∧ k.toNat ≤ 64 ∧ ps.length = k.toNat := by
  simp only [Instr.wellFormed, Instr.illFormed]
  split_ifs with hop hk hlen
  · simp [hop]
  · simp [hk]
  · simp [hlen]
  · simpa [hop] using ⟨not_lt.1 hk, not_not.1 hlen⟩

/-- An entry of a reserved opcode is no WRITE, so it fits whatever its count. -/
theorem entryFits_of_holds {ops : ReservedOps} {e : Entry} (h : ops.holds e.opcode = true) :
    entryFits ops e = true := by
  rw [entryFits_iff]
  intro h1 h2 h3
  simp [ReservedOps.holds_iff, h1, h2, h3] at h

/-- A field of at most 64 written bytes sends them when the count is theirs (30_encoding.md R83). -/
theorem Entry.sent_paramsOf (op : U32) {k : Byte} {ps : List Byte} (hlen : ps.length = k.toNat) (hk : k.toNat ≤ 64) :
    Entry.sent ⟨op, k, paramsOf ps⟩ = ps := by
  rw [Entry.sent, paramsOf_toList, List.take_of_length_le (hlen.trans_le hk), List.take_left' hlen]

/-- The encoding of a well-formed WRITE decodes to it (40_table_interpreter.md R104). -/
theorem decode_encode_write {ops : ReservedOps} {op : U32} {k : Byte} {ps : List Byte}
    (h : (Instr.write op k ps).wellFormed ops) :
    decode ops .e (encode ops (.write op k ps)) = .ok (.write op k ps) := by
  obtain ⟨hop, hk, hlen⟩ := wellFormed_write_iff.1 h
  obtain ⟨hdelay, hudelay, hfin⟩ : op ≠ ops.delay ∧ op ≠ ops.udelay ∧ op ≠ ops.fin := by
    simpa [ReservedOps.holds, and_assoc] using hop
  have hfits : entryFits ops ⟨op, k, paramsOf ps⟩ = true := (entryFits_iff ops _).2 fun _ _ _ => hk
  have hdecode : decodeEntry ops ⟨op, k, paramsOf ps⟩ = .write op k ps := by
    rw [decodeEntry_of_write hdelay hudelay hfin, Entry.sent_paramsOf op hlen hk]
  exact (decode_entry_image hfits).trans (congrArg _ hdecode)

/-- A level or an enable bit is read back from its operand (30_encoding.md R75). -/
theorem bitU32_getLsbD (b : Bool) : (bitU32 b).getLsbD 0 = b := by cases b <;> rfl

/-! ## The statements -/

/-- Settles O4, by the constructors of the instruction: its record's image is read back, and its decoder's equation
for the kind gives the operands. -/
theorem decodeOfEncodeIsTheInstruction : Obligations.DecodeOfEncodeIsTheInstruction := by
  intro ops i hd hi
  cases i with
  | write op k ps => exact decode_encode_write hi
  | delay k =>
    exact (decode_entry_image (entryFits_of_holds (by simp [ReservedOps.holds]))).trans
      (congrArg _ (decodeEntry_of_delay rfl))
  | udelay k =>
    exact (decode_entry_image (entryFits_of_holds (by simp [ReservedOps.holds]))).trans
      (congrArg _ (decodeEntry_of_udelay hd rfl))
  | endMark =>
    exact (decode_entry_image (entryFits_of_holds (by simp [ReservedOps.holds]))).trans
      (congrArg _ (decodeEntry_of_fin hd rfl))
  | sReset level =>
    refine (decode_step_image ops _).trans ?_
    rw [decodeStep_sReset, if_pos (bitU32_le level), bitU32_getLsbD]
  | sBias enable order voltage =>
    refine (decode_step_image ops _).trans ?_
    rw [decodeStep_sBias, if_pos (bitU32_le enable), bitU32_getLsbD]
  | sMdelay n => exact (decode_step_image ops _).trans (decodeStep_sMdelay n 0 0)
  | sUdelay n => exact (decode_step_image ops _).trans (decodeStep_sUdelay n 0 0)
  | hConfigure caps => exact (decode_command_image ops _).trans (hostCommandFields 0 caps 0x01)
  | hDescribe | hInitialize | hSuspend | hResume => exact decode_command_image ops _

/-- Settles O5: each record is written out in full, so the decoder's value on it is computed. -/
theorem writtenOutRecordsDecode : Obligations.WrittenOutRecordsDecode :=
  ⟨by decide, by decide, by decide, by decide, by decide, by decide⟩

end Sys2Proof
end

section
/-! Which agent acts: no one where the configuration is refused, ENV where a request is outstanding, and not SEQ where a
register holds a reserved value (30_encoding.md R81, 40_table_interpreter.md R108, 93_implementation_defined.md U10). -/

namespace Sys2Proof.Machine

/-! ## No block for a refused configuration -/

/-- Settles O13: a step looks at the configuration before it looks at the next move. -/
theorem refusedConfigurationHasNoStep : Obligations.RefusedConfigurationHasNoStep := by
  intro s c hc
  simp only [step, checkedStep, hc]

/-! ## SEQ stuck -/

/-- A reserved value in any of the four registers that have one is held (U10). -/
theorem reservedHeld_eq_true_iff {s : State} :
    s.reservedHeld = true ↔ s.lstate = .reserved3 ∨ s.phase = .reserved6 ∨ s.phase = .reserved7 ∨
      s.status ∉ statusCodes ∨ s.faultCode ∉ faultCodes := by
  simp [State.reservedHeld, or_assoc]

section
variable {s : State} (hr : s.reservedHeld = true)
include hr

/-- Whatever SEQ would do, it is stuck. -/
theorem seqDoes_stuck (act : Host.Outcome State Fault Refusal) : seqDoes s act = .fault .reservedRegister := if_pos hr

/-- With no request outstanding the own step is SEQ's, so it is stuck. -/
theorem ownStep_stuck (hp : s.pend = false) : ownStep s = .fault .reservedRegister := by
  rw [ownStep, if_neg (by simp [hp]), seqDoes_stuck hr]

/-- An accept step is SEQ's, so it is stuck (42_lifecycle.md R150). -/
theorem step_stuck_of_accept {c : CmdWord} {rest : List Input} (hc : cfgCheck s.cfg = none)
    (hi : s.inputs = .command c :: rest) (ha : s.canAccept = true) : step s = .fault .reservedRegister := by
  simp only [step, checkedStep, hc, takeMove, hi, if_pos ha, seqDoes_stuck hr]

end

/-- Settles O37: with no request outstanding the step is SEQ's own, or its accept step, and SEQ is stuck in both. -/
theorem reservedValuesLeaveSeqStuck : Obligations.ReservedValuesLeaveSeqStuck := by
  intro s hc hp hheld hi
  have hr : s.reservedHeld = true := reservedHeld_eq_true_iff.2 hheld
  have hown (ha : s.canAccept = false ∨ s.inputs = []) : step s = .fault .reservedRegister := by
    rw [step_eq_ownStep hc hi ha, ownStep_stuck hr hp]
  cases ha : s.canAccept with
  | false => exact hown (.inl ha)
  | true =>
    match hin : s.inputs, hi with
    | [], _ => exact hown (.inr hin)
    | .command c :: rest, _ => exact step_stuck_of_accept hr hc hin ha

/-! ## ENV -/

/-- With a request outstanding SEQ accepts nothing (42_lifecycle.md R165). -/
theorem canAccept_of_pend {s : State} (hp : s.pend = true) : s.canAccept = false := by
  rw [State.canAccept, hp, Bool.not_true, Bool.and_false]

/-- With no request outstanding ENV does not act, so an own step completes none. -/
theorem own_appends_no_done {s t : State} (h : Own s t) (hp : s.pend = false) :
    ∃ es, t.trace = s.trace ++ es ∧ Event.done ∉ es := by
  cases h with
  | done hpend => simp [hp] at hpend
  | entryIssued e p | stepIssued st p => exact ⟨[.req p], rfl, by simp⟩
  | entryFaulted | stepFaulted => exact ⟨[.rsp stFaultMissingCap none], rfl, by simp⟩
  | pushCompleted | scriptCompleted => exact ⟨[.rsp stOk none], rfl, by simp⟩
  | wait | pushToScript | entrySkipped | scriptToPush => exact ⟨[], by simp, by simp⟩

/-- An accept step appends `cmd`, and at most an answer after it. -/
theorem accept_appends_no_done {s t : State} {c : CmdWord} (h : Accept s c t) :
    ∃ es, t.trace = s.trace ++ es ∧ Event.done ∉ es := by
  obtain ht | ⟨st, d, ht⟩ := accept_appends h
  · exact ⟨[.cmd c], ht, by simp⟩
  · exact ⟨[.cmd c, .rsp st d], by simp [ht], by simp⟩

/-- Settles O34: with a request outstanding the own step is ENV's, and SEQ accepts nothing before it; with none
outstanding ENV does not act, and each kind of step but reset extends the trace by events of SEQ alone. -/
theorem environmentCompletesTheOutstandingRequest : Obligations.EnvironmentCompletesTheOutstandingRequest := by
  refine ⟨fun s hc hp => ⟨fun hi => ?_, fun rest hi => ?_⟩, fun s t h hp hr => ?_⟩
  · rw [step_eq_ownStep hc hi (.inl (canAccept_of_pend hp)), ownStep_done hp]
    rfl
  · rw [step_of_run hc hi, ownStep_done (s := { s with inputs := rest }) hp]
    rfl
  · obtain ⟨rest, ⟨hreset, -⟩ | rfl | ho | ⟨c, -, -, ha⟩⟩ := step_kinds h
    · exact absurd hreset hr
    · exact ⟨[], by simp, by simp⟩
    · exact own_appends_no_done (s := { s with inputs := rest }) ho hp
    · exact accept_appends_no_done (s := { s with inputs := rest }) ha

end Sys2Proof.Machine
end

section
/-! The invariant holds at reset and every step keeps it (10_state.md R22 to R31, 20_memory.md R62,
42_lifecycle.md R165, 60_exceptions.md R197). Its clauses fall into five parts, and each part is kept by itself. -/

namespace Sys2Proof.Machine

/-! ## The parts of the invariant -/

/-- What the invariant says of the phase: the Capability Table, `CUR_OP`, the push arguments and the indices fit it
(10_state.md R23, R26, R28). -/
structure State.PhaseFits (s : State) : Prop where
  busyConfigured : s.phase.isBusy = true → s.capValid = true
  curOpOk : curOpFits s.phase s.curOp
  pushOk : pushFits s

/-- What the invariant says of the fault registers, as a relation between them and `PHASE` and `CAPS`
(10_state.md R31, 60_exceptions.md R197). -/
structure FaultFits (phase : Phase) (fault : Bool) (code : Byte) (info : FaultInfo) (caps : CapBits) : Prop where
  faultPhase : fault = true ↔ phase = .faulted
  codeOk : (fault = true → code = fltMissingCap) ∧ (fault = false → code = fltNone)
  infoClear : fault = false → info = ⟨0, 0, 0, 0⟩
  capMissing : fault = true → caps.getLsbD info.cap.toNat = false

/-- What the invariant says of the outstanding request (40_table_interpreter.md R101, 10_state.md R36). -/
def State.RequestFits (s : State) : Prop := s.pend = true → s.hasCap s.req = true ∧ s.req.sized

/-- The fault registers of `s` fit. -/
abbrev State.FaultOk (s : State) : Prop := FaultFits s.phase s.fault s.faultCode s.faultInfo s.caps

/-- The five parts are the whole invariant. -/
theorem inv_iff {s : State} :
    s.Inv ↔ s.live ∧ s.PhaseFits ∧ s.RequestFits ∧ s.FaultOk ∧ s.TraceFits := by
  constructor
  · intro h
    exact ⟨⟨h.cfgOk, h.legalRegisters⟩, ⟨h.busyConfigured, h.curOpOk, h.pushOk⟩,
      fun hp => ⟨h.reqAllowed hp, h.reqSized hp⟩, ⟨h.faultPhase, h.faultCodeOk, h.faultInfoClear, h.faultCapMissing⟩,
      traceFits_of_inv h⟩
  · rintro ⟨⟨hcfg, hregs⟩, hphase, hreq, hfault, htrace⟩
    exact ⟨hcfg, hregs, htrace.pendBusy, hphase.busyConfigured, hphase.curOpOk, hphase.pushOk, fun hp => (hreq hp).1,
      fun hp => (hreq hp).2, hfault.faultPhase, hfault.codeOk, hfault.infoClear, hfault.capMissing, htrace.traceOk⟩

/-! ## No reserved value -/

/-- No register holds a reserved value after updates that leave the block idle or faulted and write legal values. -/
theorem State.live.of_rest {s t : State} (h : s.live) (hcfg : t.cfg = s.cfg) (hl : t.lstate ≠ .reserved3)
    (hq : t.phase = .idle ∨ t.phase = .faulted) (hst : t.status ∈ statusCodes) (hf : t.faultCode ∈ faultCodes) :
    t.live := by
  obtain ⟨hok, -⟩ := h
  refine ⟨hcfg ▸ hok, reservedHeld_iff.2 ⟨hl, ?_, ?_, hst, hf⟩⟩
  · obtain hq | hq := hq <;> simp [hq]
  · obtain hq | hq := hq <;> simp [hq]

/-- An own step writes no reserved value. -/
theorem own_live {s t : State} (h : Own s t) (hs : s.live) : t.live := by
  obtain ⟨hl, -⟩ := reservedHeld_iff.1 hs.2
  cases h with
  | done | wait | entryIssued | entrySkipped | stepIssued => exact hs
  | pushCompleted | scriptCompleted => exact hs.complete nofun
  | pushToScript | scriptToPush => exact hs.of_busy rfl rfl rfl rfl rfl
  | entryFaulted | stepFaulted =>
    exact hs.of_rest rfl hl (.inr rfl) (by simp [statusCodes]) (by simp [faultCodes])

/-- An accept step writes no reserved value. -/
theorem accept_live {s t : State} {c : CmdWord} (h : Accept s c t) (hs : s.live) : t.live := by
  obtain ⟨hl, -, -, -, hf⟩ := reservedHeld_iff.1 hs.2
  cases h with
  | faulted => exact hs.of_rest rfl hl (.inr rfl) (by simp [statusCodes]) hf
  | bad => exact hs.of_rest rfl hl (.inl rfl) (by simp [statusCodes]) hf
  | command i t _ _ hc =>
    cases hc with
    | configure | describe | notConfigured | invalidTransition =>
      exact hs.of_rest rfl hl (.inl rfl) (by simp [statusCodes]) hf
    | powerUp | suspend => exact hs.of_busy rfl rfl rfl rfl rfl

/-! ## The registers that fit the phase -/

/-- Idle or faulted, with `CUR_OP` cleared, the phase asks for nothing more. -/
theorem phaseFits_of_rest {t : State} (hq : t.phase = .idle ∨ t.phase = .faulted) (ho : t.curOp = 0) :
    t.PhaseFits := by
  constructor
  · obtain hq | hq := hq <;> simp [hq, Phase.isBusy, Phase.isPush, Phase.isScript]
  · obtain hq | hq := hq <;> rw [hq] <;> exact ho
  · obtain hq | hq := hq <;> rw [pushFits, hq] <;> trivial

section
variable {s t : State} (hs : s.PhaseFits)
include hs

/-- A push whose table is the suspend table is the one of SUSPEND (10_state.md R28). -/
theorem State.PhaseFits.pushSusp_of_tsel (hp : s.phase.isPush = true) (ht : s.tsel = .susp) :
    s.phase = .pushSusp := by
  refine (isPush_iff.1 hp).resolve_left fun hq => ?_
  have hfits := hs.pushOk
  simp [pushFits, hq, ht] at hfits

/-- A push may advance past an entry below its count. -/
theorem State.PhaseFits.advanceIdx (hp : s.phase.isPush = true) (hlt : s.idx.toNat < s.count.toNat) :
    (advanceIdx s).PhaseFits := by
  have hle : (s.idx + 1).toNat ≤ s.count.toNat := (toNat_succ_of_lt hlt).trans_le hlt
  refine ⟨hs.busyConfigured, hs.curOpOk, ?_⟩
  have hfits := hs.pushOk
  obtain hq | hq := isPush_iff.1 hp <;> rw [pushFits, hq] at hfits <;> rw [pushFits, advanceIdx_phase, hq] <;>
    obtain ⟨htsel, hcount, hforce, -⟩ := hfits <;> exact ⟨htsel, hcount, hforce, hle⟩

/-- A script may advance past a step it has read. -/
theorem State.PhaseFits.advanceSidx {st : ScriptStep} (hcfg : cfgCheck s.cfg = none) (hp : s.phase.isScript = true)
    (hread : scriptRead s s.sidx.toNat = some st) : (advanceSidx s).PhaseFits := by
  obtain ⟨hlt, -⟩ := List.getElem?_eq_some_iff.1 hread
  have hle : (s.sidx + 1).toNat ≤ s.script.length :=
    (toNat_succ_of_lt_length hlt (script_length_lt hcfg)).trans_le hlt
  refine ⟨hs.busyConfigured, hs.curOpOk, ?_⟩
  obtain hq | hq := isScript_iff.1 hp <;> rw [pushFits, advanceSidx_phase, hq]
  · exact script_of_pwrUp hq ▸ hle
  · exact script_of_pwrDown hq ▸ hle

/-- An own step keeps what fits the phase: it advances within the phase, goes on to the next one of the command, or
ends the command. -/
theorem own_phaseFits (h : Own s t) (hcfg : cfgCheck s.cfg = none) : t.PhaseFits := by
  cases h with
  | done | wait => exact ⟨hs.busyConfigured, hs.curOpOk, hs.pushOk⟩
  | pushCompleted | scriptCompleted => exact phaseFits_of_rest (.inl rfl) rfl
  | entryFaulted | stepFaulted => exact phaseFits_of_rest (.inr rfl) rfl
  | entryIssued e p hc _ hlt =>
    obtain ⟨hv, ho, hidx⟩ := hs.advanceIdx (isPush_iff.2 (canPush_iff.1 hc).1) hlt
    exact ⟨hv, ho, hidx⟩
  | entrySkipped e hc _ hlt => exact hs.advanceIdx (isPush_iff.2 (canPush_iff.1 hc).1) hlt
  | stepIssued st p hc _ hread =>
    obtain ⟨hv, ho, hidx⟩ := hs.advanceSidx hcfg (isScript_iff.2 (canScript_iff.1 hc).1) hread
    exact ⟨hv, ho, hidx⟩
  | pushToScript hc _ _ ht =>
    have hq := hs.pushSusp_of_tsel (isPush_iff.2 (canPush_iff.1 hc).1) ht
    have ho := hs.curOpOk
    rw [hq] at ho
    exact ⟨fun _ => hs.busyConfigured (busy_of_canPush hc).1, ho, Nat.zero_le _⟩
  | scriptToPush hq =>
    have ho := hs.curOpOk
    rw [hq] at ho
    exact ⟨fun _ => hs.busyConfigured (by rw [hq]; rfl), ho, rfl, rfl, rfl, Nat.zero_le _⟩

end

/-- An accept step answers, or starts a busy command of a configured block, with its code in `CUR_OP`. -/
theorem accept_phaseFits {s t : State} {c : CmdWord} (h : Accept s c t) : t.PhaseFits := by
  cases h with
  | faulted => exact phaseFits_of_rest (.inr rfl) rfl
  | bad => exact phaseFits_of_rest (.inl rfl) rfl
  | command i t _ _ hc =>
    cases hc with
    | configure | describe | notConfigured | invalidTransition => exact phaseFits_of_rest (.inl rfl) rfl
    | powerUp i o hv ho =>
      have hcode : o = 3 ∨ o = 5 := ho.imp And.right fun h => h.2.1
      exact ⟨fun _ => hv, hcode, Nat.zero_le _⟩
    | suspend hv => exact ⟨fun _ => hv, rfl, rfl, rfl, rfl, Nat.zero_le _⟩

/-! ## The outstanding request -/

/-- An own step leaves no request outstanding but one it has just issued, of a record that passes WF1 or WF4. -/
theorem own_requestFits {s t : State} (h : Own s t) (hcfg : cfgCheck s.cfg = none) : t.RequestFits := by
  cases h with
  | entryIssued e p _ _ _ hread hq hcap => exact fun _ => ⟨hcap, sized_of_entry (entryFits_of_read hcfg hread) hq⟩
  | stepIssued st p _ _ _ hq hcap => exact fun _ => ⟨hcap, sized_of_step hq⟩
  | done => exact nofun
  | wait hp | scriptToPush _ hp | scriptCompleted _ hp => exact fun ht => absurd (hp.symm.trans ht) nofun
  | pushCompleted hc | pushToScript hc | entryFaulted _ _ hc | entrySkipped _ hc =>
    exact fun ht => absurd ((busy_of_canPush hc).2.symm.trans ht) nofun
  | stepFaulted _ _ hc => exact fun ht => absurd ((busy_of_canScript hc).2.symm.trans ht) nofun

/-- An accept step leaves no request outstanding. -/
theorem accept_requestFits {s t : State} {c : CmdWord} (h : Accept s c t) (ha : s.canAccept = true) :
    t.RequestFits :=
  fun ht => absurd ((canAccept_iff.1 ha).2.symm.trans ((accept_pend h).symm.trans ht)) nofun

/-! ## The fault registers -/

/-- Where no fault is recorded, the phase may change to any other but `FAULTED`, and `CAPS` may change. -/
theorem FaultFits.of_not_faulted {p q : Phase} {f : Bool} {code : Byte} {info : FaultInfo} {caps caps' : CapBits}
    (h : FaultFits p f code info caps) (hp : p ≠ .faulted) (hq : q ≠ .faulted) : FaultFits q f code info caps' := by
  have hf : ¬ f = true := fun hf => hp (h.faultPhase.1 hf)
  exact ⟨iff_of_false hf hq, h.codeOk, h.infoClear, fun ht => absurd ht hf⟩

/-- The fault entry for a request whose capability is missing names that capability (60_exceptions.md R195, R196). -/
theorem takeFault_faultOk {s : State} {p : Request} (hc : s.hasCap p = false) :
    (takeFault (faultRecord p s) s).FaultOk where
  faultPhase := iff_of_true rfl rfl
  codeOk := ⟨fun _ => rfl, nofun⟩
  infoClear := nofun
  capMissing _ := by
    rw [takeFault_faultInfo, faultRecord, kind_ofNat]
    exact hc

theorem ne_faulted_of_busy {p : Phase} (h : p.isBusy = true) : p ≠ .faulted := by
  rintro rfl
  exact absurd h (by decide)

/-- An own step records no fault but at the fault entry, and clears none. -/
theorem own_faultOk {s t : State} (h : Own s t) (hs : s.FaultOk) : t.FaultOk := by
  cases h with
  | done | wait | entryIssued | entrySkipped | stepIssued => exact hs
  | entryFaulted _ _ _ _ _ _ _ hcap | stepFaulted _ _ _ _ _ _ hcap => exact takeFault_faultOk hcap
  | pushCompleted hc | pushToScript hc =>
    exact hs.of_not_faulted (ne_faulted_of_busy (busy_of_canPush hc).1) nofun
  | scriptToPush hq | scriptCompleted hq => exact hs.of_not_faulted (by simp [hq]) nofun

/-- An accept step in `FAULTED` only answers; in `IDLE` no fault is recorded, before it or after it. -/
theorem accept_faultOk {s t : State} {c : CmdWord} (h : Accept s c t) (hs : s.FaultOk) : t.FaultOk := by
  cases h with
  | faulted hq =>
    rw [State.FaultOk, hq] at hs
    exact hs
  | bad hq => exact hs.of_not_faulted (by simp [hq]) nofun
  | command i t hq _ hc =>
    have hidle : s.phase ≠ .faulted := by simp [hq]
    cases hc <;> exact hs.of_not_faulted hidle nofun

/-! ## Steps keep the invariant -/

theorem own_inv {s t : State} (h : Own s t) (hs : s.Inv) : t.Inv := by
  obtain ⟨hlive, hphase, -, hfault, htrace⟩ := inv_iff.1 hs
  exact inv_iff.2 ⟨own_live h hlive, own_phaseFits hphase h hs.cfgOk, own_requestFits h hs.cfgOk,
    own_faultOk h hfault, own_traceFits h htrace⟩

theorem accept_inv {s t : State} {c : CmdWord} (h : Accept s c t) (ha : s.canAccept = true) (hs : s.Inv) : t.Inv := by
  obtain ⟨hlive, -, -, hfault, htrace⟩ := inv_iff.1 hs
  exact inv_iff.2 ⟨accept_live h hlive, accept_phaseFits h, accept_requestFits h ha, accept_faultOk h hfault,
    accept_traceFits h ha htrace⟩

/-- Reset leaves a state of the invariant, whatever state it was, if the configuration passes its checks (R220). -/
theorem resetState_inv {s : State} (h : cfgCheck s.cfg = none) : (resetState s).Inv :=
  inv_iff.2 ⟨⟨h, rfl⟩, phaseFits_of_rest (.inl rfl) rfl, nofun,
    ⟨iff_of_false nofun nofun, ⟨nofun, fun _ => rfl⟩, fun _ => rfl, nofun⟩, ⟨nofun, rfl⟩⟩

/-- The defaults of R8 pass every check: there are no entries and no script steps to fail one. -/
theorem cfgCheck_defaultCfg : cfgCheck defaultCfg = none := rfl

/-- Settles O3: the reset state is what reset leaves, under a configuration that passes its checks. -/
theorem invariantHoldsAtReset : Obligations.InvariantHoldsAtReset :=
  resetState_inv (s := State.reset) cfgCheck_defaultCfg

/-- Settles O42: each of the four kinds of step keeps the five parts of the invariant. -/
theorem everyStepKeepsTheInvariant : Obligations.EveryStepKeepsTheInvariant := by
  intro s t hs h
  obtain ⟨rest, ⟨-, rfl⟩ | rfl | ho | ⟨c, -, ha, hacc⟩⟩ := step_kinds h
  · exact resetState_inv hs.cfgOk
  · exact hs.withInputs rest
  · exact own_inv ho (hs.withInputs rest)
  · exact accept_inv hacc ha (hs.withInputs rest)

end Sys2Proof.Machine
end
